-- ==== Sys2Proof/Word.lean ====
section
/-! DEFINITION. The word and byte types of the block (spec/00_scope.md R5, R8). -/

namespace Sys2Proof

/-- A 16-bit word: register values, addresses, instruction words and memory words (R5, R8).
`+` on it is addition modulo 65536, as R8 asks of every `+` of the spec. -/
abbrev Word := BitVec 16

/-- An 8-bit byte: what the keyboard supplies and the console takes (R41, R43). -/
abbrev Byte := BitVec 8

end Sys2Proof
end

