-- ==== Sys2Proof/Config.lean ====
section
/-! DEFINITION. What an implementation of the block fixes: the fixed parameters of spec/00_scope.md R5
and the type of the named string parameters of R6. The values the spec gives as defaults stand in
Machine/Defaults.lean. The block has no opaque value: every choice of the host is plain data in State,
so a statement about every state holds for every choice. -/

namespace Sys2Proof.Config

/-- The number of words of memory, addresses 0x0000 to 0xFFFF (R5, R50). -/
def memoryWords : Nat := 65536

/-- The address of KBSR, the keyboard status register (R5, R36). -/
def kbsrAddr : Word := 0xFE00

/-- The address of KBDR, the keyboard data register (R5, R37). -/
def kbdrAddr : Word := 0xFE02

/-- The two byte strings the spec leaves to the platform (R6; decisions D18, D19).
They are held in State, and no step changes them, so a statement about every state
holds for every `IN_PROMPT` and every `HALT_NOTICE`. -/
structure Params where
  /-- `IN_PROMPT`: what the IN service puts before it waits (R190). -/
  inPrompt : List Byte
  /-- `HALT_NOTICE`: what the HALT service puts (R194). -/
  haltNotice : List Byte
  deriving DecidableEq, Repr

end Sys2Proof.Config
end

