-- ==== Sys2Proof/Machine/Defaults.lean ====
section
/-! DEFINITION. The values `State.reset` takes for the named parameters of spec/00_scope.md R6. Each is a
default: the ports of Machine/Ports.lean take the parameters as arguments, and statements quantify
over them. -/

namespace Sys2Proof.Machine

/-- The default of `ENTRY_PC`, "default load/entry point 0x3000" (R6, R241, D7). -/
def Defaults.entryPC : Word := 0x3000

/-- Every general register after reset in `State.reset`. DESIGN CHOICE, unsafe: `RESET_GPR` is
unspecified (R243, D9; log entry 1). -/
def Defaults.resetGpr : Word := 0

/-- What a memory word reads as that nothing has written. DESIGN CHOICE, unsafe: `RESET_MEM` is
unspecified (R244, D9; log entry 2). -/
def Defaults.unlistedWord : Word := 0

/-- The default of `IN_PROMPT`, the ASCII bytes of `Enter a character: ` (R6; D18, G6). -/
def Defaults.inPrompt : List Byte :=
  [0x45, 0x6E, 0x74, 0x65, 0x72, 0x20, 0x61, 0x20, 0x63, 0x68, 0x61, 0x72, 0x61, 0x63, 0x74, 0x65,
    0x72, 0x3A, 0x20]

/-- The default of `HALT_NOTICE`, the ASCII bytes of `HALT` and a line feed (R6; D19, G7). -/
def Defaults.haltNotice : List Byte := [0x48, 0x41, 0x4C, 0x54, 0x0A]

/-- The default string parameters. -/
def Defaults.params : Config.Params := ⟨Defaults.inPrompt, Defaults.haltNotice⟩

end Sys2Proof.Machine
end

