-- ==== Sys2Proof/Syntax.lean ====
section
/-! DEFINITION. The instructions of the block: one constructor per row of spec/opcode_table.json, with
the fields spec/30_encoding.md R87 lists for its format. The unused bits of a format are fields too,
so that an instruction determines its word (a FATAL record holds the whole word, R211). -/

namespace Sys2Proof

/-- The eight general registers (spec/10_state.md R20). -/
inductive Reg where
  | r0 | r1 | r2 | r3 | r4 | r5 | r6 | r7
  deriving DecidableEq, Repr

/-- The instructions. Constructor arguments stand in the order of their bits, highest first (R87). -/
inductive Instr where
  /-- BR: the test bits n, z, p and PCoffset9 (R130). -/
  | br (n z p : Bool) (off9 : BitVec 9)
  /-- ADD, register form; bits 4:3 unused (R110). -/
  | add (dr sr1 : Reg) (unused : BitVec 2) (sr2 : Reg)
  /-- ADD, immediate form (R111). -/
  | addImm (dr sr1 : Reg) (imm5 : BitVec 5)
  /-- LD (R150). -/
  | ld (dr : Reg) (off9 : BitVec 9)
  /-- ST (R160). -/
  | st (sr : Reg) (off9 : BitVec 9)
  /-- JSR, mode flag 1 (R136). -/
  | jsr (off11 : BitVec 11)
  /-- JSRR, mode flag 0; bits 10:9 and 5:0 unused (R137). -/
  | jsrr (unusedHi : BitVec 2) (baseR : Reg) (unusedLo : BitVec 6)
  /-- AND, register form; bits 4:3 unused (R113). -/
  | and (dr sr1 : Reg) (unused : BitVec 2) (sr2 : Reg)
  /-- AND, immediate form (R114). -/
  | andImm (dr sr1 : Reg) (imm5 : BitVec 5)
  /-- LDR (R154). -/
  | ldr (dr baseR : Reg) (off6 : BitVec 6)
  /-- STR (R164). -/
  | str (sr baseR : Reg) (off6 : BitVec 6)
  /-- The illegal opcode 0b1000; bits 11:0 are not decoded (R210). -/
  | illegal1000 (rest : BitVec 12)
  /-- NOT; bits 5:0 unused (R116). -/
  | not (dr sr : Reg) (unused : BitVec 6)
  /-- LDI (R152). -/
  | ldi (dr : Reg) (off9 : BitVec 9)
  /-- STI (R162). -/
  | sti (sr : Reg) (off9 : BitVec 9)
  /-- JMP, and RET when the base is R7; bits 11:9 and 5:0 unused (R133, R134). -/
  | jmp (unusedHi : BitVec 3) (baseR : Reg) (unusedLo : BitVec 6)
  /-- The illegal opcode 0b1101; bits 11:0 are not decoded (R210). -/
  | illegal1101 (rest : BitVec 12)
  /-- LEA (R156). -/
  | lea (dr : Reg) (off9 : BitVec 9)
  /-- TRAP; bits 11:8 unused (R180). -/
  | trap (unused : BitVec 4) (vect8 : BitVec 8)
  deriving DecidableEq, Repr

end Sys2Proof
end

