-- ==== Sys2Proof/Machine/State.lean ====
section
/-! DEFINITION. The state of the block, as plain data: everything spec/10_state.md section 7 lists, and
what the block shares with its host through the ports of R40 (the host's input, the console output
stream, a pending cancel). -/

namespace Sys2Proof.Machine

/-- The condition code: exactly one of N, Z, P (R25). -/
inductive Cond where
  | n | z | p
  deriving DecidableEq, Repr

/-- The two synchronous error conditions of the block (R211, R212). -/
inductive FatalReason where
  /-- ILLEGAL_OPCODE (R210). -/
  | illegalOpcode
  /-- UNKNOWN_TRAP (R196). -/
  | unknownTrap
  deriving DecidableEq, Repr

/-- The fatal record the `run_state` output shows in FATAL (R211). -/
structure FatalRecord where
  reason : FatalReason
  /-- The address the faulting instruction was fetched from. -/
  faultPC : Word
  /-- The faulting instruction's word. -/
  faultInstr : Word
  deriving DecidableEq, Repr

/-- The run state (R31). -/
inductive RunState where
  | running
  | halted
  | fatal (r : FatalRecord)
  | cancelled
  deriving DecidableEq, Repr

/-- The services that wait for a host byte in WAIT_INPUT (R34). -/
inductive WaitService where
  /-- GETC (R186). -/
  | getc
  /-- IN (R190). -/
  | input
  deriving DecidableEq, Repr

/-- The services that walk memory in STRING_OUT (R34). -/
inductive StringService where
  /-- PUTS (R188). -/
  | puts
  /-- PUTSP (R192). -/
  | putsp
  deriving DecidableEq, Repr

/-- The phase of the control FSM (R34). -/
inductive Phase where
  /-- RESET: reset is asserted (R240). -/
  | reset
  /-- FETCH: about to fetch the next instruction. -/
  | fetch
  /-- EXECUTE, with `instr`, the word the fetch read (R81). FETCH and EXECUTE of one instruction are
  one step (R35), so no step of a running block ends here (log entry 17). -/
  | execute (instr : Word)
  /-- WAIT_INPUT(service). -/
  | waitInput (svc : WaitService)
  /-- STRING_OUT(service, ptr, begun): `ptr` is the address of the next word, and `begun` says that a word
  of this walk has been read, so that the block stands between two words (R34, R195). -/
  | stringOut (svc : StringService) (ptr : Word) (begun : Bool)
  deriving DecidableEq, Repr

/-- One answer of the host's keyboard, in the order the block asks (R41, R42; D34).
A list of these is the host's input stream with the moments marked at which the next character has
not arrived yet: whether a key is pending at a poll is the host's choice, so it is data here.
DESIGN CHOICE, safe (log entry 7). -/
inductive KeyEvent where
  /-- At this query no character is pending. -/
  | idle
  /-- The character `c` is pending. -/
  | key (c : Byte)
  deriving DecidableEq, Repr

/-- One event of the console output stream (R43, R44). -/
inductive ConsoleEvent where
  /-- `ConPut(b)`. -/
  | put (b : Byte)
  /-- `ConFlush()`, recorded as R44 allows (log entry 14). -/
  | flush
  deriving DecidableEq, Repr

/-- The register file R0 to R7 (R20). -/
structure Regs where
  r0 : Word
  r1 : Word
  r2 : Word
  r3 : Word
  r4 : Word
  r5 : Word
  r6 : Word
  r7 : Word
  deriving DecidableEq, Repr

/-- One word of memory at its word address: the block has no byte address (R51, R58).
DESIGN CHOICE, safe (log entry 3). -/
abbrev Cell := Nat × Word

/-- Memory: the words that differ from what an unlisted address reads as, at strictly rising addresses
(`Memory.wf`). -/
abbrev Memory := List Cell

/-- The state of the block. -/
structure State where
  /-- R0 to R7 (R20). -/
  regs : Regs
  /-- The program counter (R23). -/
  pc : Word
  /-- COND (R25). -/
  cond : Cond
  /-- The 65536 words, KBSR (0xFE00) and KBDR (0xFE02) among them (R36, R37, R50). -/
  mem : Memory
  /-- The run state (R31). -/
  run : RunState
  /-- The phase of the FSM with its service data (R34). -/
  phase : Phase
  /-- A cancel is asserted and not yet taken (R45). -/
  cancelPending : Bool
  /-- The host's draw of R221: in WAIT_INPUT, with a byte and a cancel both available, the cancel is
  taken first. The MODEL's own field: DESIGN CHOICE, safe (log entry 10). -/
  cancelFirst : Bool
  /-- The host's input, oldest first (R39(a), R41, R42). -/
  keyboard : List KeyEvent
  /-- The console output stream, oldest first (R43, R44). -/
  console : List ConsoleEvent
  /-- `IN_PROMPT` and `HALT_NOTICE` (R6); no step changes them (log entry 6). -/
  params : Config.Params
  deriving DecidableEq, Repr

/-- The reasons a step can end without a next state. There are none: the block's two error conditions
(R212) are run states the block enters, with the effects R196 and R210 list, and a step that is
blocked (RESET, WAIT_INPUT, a terminal run state) leaves the state as it is (log entries 8 and 16). -/
inductive Fault where
  deriving DecidableEq, Repr

/-- The reasons the model refuses an instruction. -/
inductive Refusal where
  /-- The instruction named has no meaning yet. Raised by `exec` alone, for an arm not written; no arm
  of this model raises it. Safe: nothing is claimed of the instruction. -/
  | notModelled (mnemonic : String)
  deriving DecidableEq, Repr

/-- What an instruction or a step answers. -/
abbrev Result := Host.Outcome State Fault Refusal

/-- The block right after reset is released (R241 to R245), with nothing in memory, no host input, no
output yet and no cancel pending. PC is `ENTRY_PC`, COND is Z, the run state is RUNNING and the phase
FETCH, as the rules say; R0 to R7 (R243) and memory (R244) are unspecified there and are zero here
(log entries 1 and 2). -/
def State.reset : State where
  regs := ⟨Defaults.resetGpr, Defaults.resetGpr, Defaults.resetGpr, Defaults.resetGpr,
    Defaults.resetGpr, Defaults.resetGpr, Defaults.resetGpr, Defaults.resetGpr⟩
  pc := Defaults.entryPC
  cond := .z
  mem := []
  run := .running
  phase := .fetch
  cancelPending := false
  cancelFirst := false
  keyboard := []
  console := []
  params := Defaults.params

end Sys2Proof.Machine
end

