-- ==== Sys2Proof/Machine/Flags.lean ====
section
/-! DEFINITION. The condition code: `setcc` (spec/10_state.md R27), its bits (R28) and the test of BR
(spec/41_control.md R130). There is no other flag (R8, R30). -/

namespace Sys2Proof.Machine

/-- The value `setcc(v)` gives COND (R27). -/
def Cond.ofWord (v : Word) : Cond :=
  if v = 0x0000 then .z else if v.getLsbD 15 then .n else .p

/-- COND as bits, in the order of BR's test bits (R28). -/
def Cond.bits : Cond → BitVec 3
  | .n => 0b100
  | .z => 0b010
  | .p => 0b001

/-- BR's test bits as the 3-bit value `nzp` (R90). -/
def nzpBits (n z p : Bool) : BitVec 3 := BitVec.ofBool n ++ BitVec.ofBool z ++ BitVec.ofBool p

/-- BR's test, `(nzp AND COND) != 0b000` (R130). -/
def brTaken (n z p : Bool) (c : Cond) : Bool := (nzpBits n z p &&& c.bits) != 0b000

end Sys2Proof.Machine
end

