-- ==== Sys2Proof/Machine/Operands.lean ====
section
/-! DEFINITION. Operand forms: the extensions of spec/00_scope.md R9 and R10, the byte selections of R59,
and the address computations of the three addressing modes (R91, R93, R166). -/

namespace Sys2Proof.Machine

/-- `sext_N(v)` as R9 writes it: where bit N-1 is set, OR with `0xFFFF << N`. -/
def sext {n : Nat} (v : BitVec n) : Word :=
  if v.msb then v.setWidth 16 ||| ((0xFFFF : Word) <<< n) else v.setWidth 16

/-- `zext_16(b)` (R10). -/
def zext (b : Byte) : Word := b.setWidth 16

/-- Bits 7:0 of a word: the character of OUT and PUTS, the first character of PUTSP (R59). -/
def lowByte (w : Word) : Byte := w.extractLsb' 0 8

/-- Bits 15:8 of a word: the second character of PUTSP (R59). -/
def highByte (w : Word) : Byte := w.extractLsb' 8 8

/-- A word from its two bytes, high byte first: the image format's order (R59, R246). -/
def bigEndian (hi lo : Byte) : Word := hi ++ lo

/-- The PC-relative address with PCoffset9; `pc` is the incremented PC (R91, R93). -/
def pcRel9 (pc : Word) (off9 : BitVec 9) : Word := pc + sext off9

/-- The PC-relative address with PCoffset11; `pc` is the incremented PC (R91, R93). -/
def pcRel11 (pc : Word) (off11 : BitVec 11) : Word := pc + sext off11

/-- The base plus offset address, `x[BaseR] + sext_6(offset6)` (R91, R166). -/
def baseOff6 (base : Word) (off6 : BitVec 6) : Word := base + sext off6

end Sys2Proof.Machine
end

