-- ==== Sys2Proof/Machine/Ops.lean ====
section
/-! DEFINITION. The named operations over registers, memory and the host ports that every meaning is
written from: the pseudocode primitives of spec/00_scope.md section 4. -/

namespace Sys2Proof.Machine

/-! ### Memory as a list in canonical form -/

/-- The word at address `a` (R50); an unlisted address reads as `Defaults.unlistedWord` (log entry 2). -/
def Memory.read : Memory → Nat → Word
  | [], _ => Defaults.unlistedWord
  | (b, w) :: m, a => if a = b then w else Memory.read m a

/-- The memory with the word at address `a` replaced by `v`, in canonical form: writing what an
unlisted address reads as removes the entry (R56). -/
def Memory.write : Memory → Nat → Word → Memory
  | [], a, v => if v = Defaults.unlistedWord then [] else [(a, v)]
  | (b, w) :: m, a, v =>
    if a < b then
      if v = Defaults.unlistedWord then (b, w) :: m else (a, v) :: (b, w) :: m
    else if a = b then
      if v = Defaults.unlistedWord then m else (a, v) :: m
    else (b, w) :: Memory.write m a v

/-- The canonical form from address `lo` upward: addresses strictly rising and inside the address
space, no entry equal to what an unlisted address reads as. -/
def Memory.wfFrom : Nat → Memory → Bool
  | _, [] => true
  | lo, (a, w) :: m =>
    decide (lo ≤ a) && decide (a < Config.memoryWords) && decide (w ≠ Defaults.unlistedWord) &&
      Memory.wfFrom (a + 1) m

/-- The canonical form of memory: equal contents are equal lists. -/
def Memory.wf (m : Memory) : Bool := Memory.wfFrom 0 m

/-! ### The register file -/

/-- Read one register of the file (R20). -/
def Regs.get (g : Regs) : Reg → Word
  | .r0 => g.r0
  | .r1 => g.r1
  | .r2 => g.r2
  | .r3 => g.r3
  | .r4 => g.r4
  | .r5 => g.r5
  | .r6 => g.r6
  | .r7 => g.r7

/-- Write one register of the file (R20): none is hard-wired, none is banked. -/
def Regs.set (g : Regs) (r : Reg) (v : Word) : Regs :=
  match r with
  | .r0 => { g with r0 := v }
  | .r1 => { g with r1 := v }
  | .r2 => { g with r2 := v }
  | .r3 => { g with r3 := v }
  | .r4 => { g with r4 := v }
  | .r5 => { g with r5 := v }
  | .r6 => { g with r6 := v }
  | .r7 => { g with r7 := v }

namespace State

/-- `x[r]` (R20). -/
def reg (s : State) (r : Reg) : Word := s.regs.get r

/-- `x[r] <- v` (R20). -/
def setReg (r : Reg) (v : Word) (s : State) : State := { s with regs := s.regs.set r v }

/-- `PC <- target` (R23). -/
def setPC (target : Word) (s : State) : State := { s with pc := target }

/-- `setcc(v)` (R27). -/
def setcc (v : Word) (s : State) : State := { s with cond := Cond.ofWord v }

/-- `x[dr] <- v` and then `setcc(x[dr])`, on the register's final value (R29). -/
def setRegCC (dr : Reg) (v : Word) (s : State) : State :=
  setcc ((setReg dr v s).reg dr) (setReg dr v s)

/-- `x[7] <- PC`, the link of JSR, JSRR and TRAP (R22, R138, R180). -/
def link (s : State) : State := setReg .r7 s.pc s

/-! ### Memory accesses -/

/-- The word stored at `a`, without the address decoder: what the host's read-back sees (R231). -/
def peek (s : State) (a : Word) : Word := s.mem.read a.toNat

/-- `MemWrite(a, 1, v)`: a plain store at every address (R56). -/
def memWrite (a v : Word) (s : State) : State := { s with mem := s.mem.write a.toNat v }

/-- What `KbdPoll()` answers (R41). -/
def polled (s : State) : Option Byte :=
  match s.keyboard with
  | .key c :: _ => some c
  | .idle :: _ => none
  | [] => none

/-- `KbdPoll()`'s effect: the host's answer to this query is used up, and with it the character when
there was one (R41). -/
def afterQuery (s : State) : State := { s with keyboard := s.keyboard.tail }

/-- `kbsr_poll()` (R54). -/
def kbsrPoll (s : State) : State :=
  match s.polled with
  | some c => memWrite Config.kbdrAddr (zext c) (memWrite Config.kbsrAddr 0x8000 s.afterQuery)
  | none => memWrite Config.kbsrAddr 0x0000 s.afterQuery

/-- The state after a `MemRead(a, 1)`: a read of 0xFE00 polls the keyboard first, no other read has an
effect (R53). -/
def afterRead (s : State) (a : Word) : State := if a = Config.kbsrAddr then s.kbsrPoll else s

/-- `MemRead(a, 1)`, the address decoder: the word read and the state after the read (R53). -/
def memRead (a : Word) (s : State) : Word × State := ((s.afterRead a).peek a, s.afterRead a)

/-! ### The console -/

/-- `ConPut(b)` (R43). -/
def conPut (b : Byte) (s : State) : State := { s with console := s.console ++ [.put b] }

/-- `for each byte b of bs: ConPut(b)` (R190, R194). -/
def conPuts (bs : List Byte) (s : State) : State :=
  { s with console := s.console ++ bs.map ConsoleEvent.put }

/-- `ConFlush()` (R44). -/
def conFlush (s : State) : State := { s with console := s.console ++ [.flush] }

/-! ### The control FSM -/

/-- Go to a phase (R35). -/
def enter (ph : Phase) (s : State) : State := { s with phase := ph }

/-- The instruction or service is complete: back to FETCH (R35). -/
def finish (s : State) : State := enter .fetch s

/-- `halt()` (R32): the run state becomes HALTED; the FSM stops where it is (log entry 12). -/
def halt (s : State) : State := { s with run := .halted }

/-- Take the pending cancel (R220): the run state becomes CANCELLED and nothing else changes; the FSM
stops where it is, and the cancel stays asserted (R45; log entry 12). -/
def takeCancel (s : State) : State := { s with run := .cancelled }

/-- TAKING AN EXCEPTION: `raise Fatal(reason, fault_pc = PC - 1, fault_instr = instr)` (R211). The run
state becomes FATAL with the record; the FSM stops where it is; no register, no flag and no memory
word changes, no handler runs, and nothing returns from it (R217, R218). -/
def raiseFatal (reason : FatalReason) (instr : Word) (s : State) : State :=
  { s with run := .fatal ⟨reason, s.pc - 1, instr⟩ }

/-- FETCH (R82): read the word at PC through the decoder, add one to PC, and go to EXECUTE with it. -/
def fetch (s : State) : State :=
  match memRead s.pc s with
  | (instr, s1) => enter (.execute instr) (setPC (s.pc + 1) s1)

end State

/-- The reason codes of the fatal record (R211). -/
def FatalReason.code : FatalReason → Nat
  | .illegalOpcode => 1
  | .unknownTrap => 2

/-- HALTED, FATAL and CANCELLED are terminal (R33). -/
def RunState.terminal : RunState → Bool
  | .running => false
  | .halted => true
  | .fatal _ => true
  | .cancelled => true

end Sys2Proof.Machine
end

