-- ==== Sys2Proof/Machine/Control.lean ====
section
/-! DEFINITION. Control transfer: BR, JMP, JSR, JSRR (spec/41_control.md). PC holds the instruction's
address plus 1; no transfer has a delay slot (R139). -/

namespace Sys2Proof.Machine

/-- BR (R130). -/
def execBr (n z p : Bool) (off9 : BitVec 9) (s : State) : Result :=
  .next (State.finish
    (if brTaken n z p s.cond then State.setPC (pcRel9 s.pc off9) s else s))

/-- JMP, and RET when the base is R7 (R133, R134). -/
def execJmp (_unusedHi : BitVec 3) (baseR : Reg) (_unusedLo : BitVec 6) (s : State) : Result :=
  .next (State.finish (State.setPC (s.reg baseR) s))

/-- JSR (R136). -/
def execJsr (off11 : BitVec 11) (s : State) : Result :=
  .next (State.finish (State.setPC (pcRel11 s.pc off11) s.link))

/-- JSRR (R137): R7 is written before the base is read, so `JSRR R7` continues at the next
instruction (D27). -/
def execJsrr (_unusedHi : BitVec 2) (baseR : Reg) (_unusedLo : BitVec 6) (s : State) : Result :=
  .next (State.finish (State.setPC (s.link.reg baseR) s.link))

end Sys2Proof.Machine
end

