-- ==== Sys2Proof/Machine/LoadStore.lean ====
section
/-! DEFINITION. Loads, stores and LEA (spec/42_load_store.md). PC holds the instruction's address plus 1. -/

namespace Sys2Proof.Machine

/-- LD (R150). -/
def execLd (dr : Reg) (off9 : BitVec 9) (s : State) : Result :=
  match State.memRead (pcRel9 s.pc off9) s with
  | (v, s1) => .next (State.finish (State.setRegCC dr v s1))

/-- LDI (R152): the pointer is read first, then the data. -/
def execLdi (dr : Reg) (off9 : BitVec 9) (s : State) : Result :=
  match State.memRead (pcRel9 s.pc off9) s with
  | (ptr, s1) =>
    match State.memRead ptr s1 with
    | (v, s2) => .next (State.finish (State.setRegCC dr v s2))

/-- LDR (R154): the base is read before DR is written. -/
def execLdr (dr baseR : Reg) (off6 : BitVec 6) (s : State) : Result :=
  match State.memRead (baseOff6 (s.reg baseR) off6) s with
  | (v, s1) => .next (State.finish (State.setRegCC dr v s1))

/-- LEA (R156): the address itself; memory is not read. -/
def execLea (dr : Reg) (off9 : BitVec 9) (s : State) : Result :=
  .next (State.finish (State.setRegCC dr (pcRel9 s.pc off9) s))

/-- ST (R160). -/
def execSt (sr : Reg) (off9 : BitVec 9) (s : State) : Result :=
  .next (State.finish (State.memWrite (pcRel9 s.pc off9) (s.reg sr) s))

/-- STI (R162): the pointer read, then the write. -/
def execSti (sr : Reg) (off9 : BitVec 9) (s : State) : Result :=
  match State.memRead (pcRel9 s.pc off9) s with
  | (ptr, s1) => .next (State.finish (State.memWrite ptr (s1.reg sr) s1))

/-- STR (R164). -/
def execStr (sr baseR : Reg) (off6 : BitVec 6) (s : State) : Result :=
  .next (State.finish (State.memWrite (baseOff6 (s.reg baseR) off6) (s.reg sr) s))

end Sys2Proof.Machine
end

