-- ==== Sys2Proof/Machine/Operate.lean ====
section
/-! DEFINITION. The operate instructions: ADD, AND, NOT (spec/40_operate.md). -/

namespace Sys2Proof.Machine

/-- ADD, register form (R110). -/
def execAdd (dr sr1 : Reg) (_unused : BitVec 2) (sr2 : Reg) (s : State) : Result :=
  .next (State.finish (State.setRegCC dr (s.reg sr1 + s.reg sr2) s))

/-- ADD, immediate form (R111). -/
def execAddImm (dr sr1 : Reg) (imm5 : BitVec 5) (s : State) : Result :=
  .next (State.finish (State.setRegCC dr (s.reg sr1 + sext imm5) s))

/-- AND, register form (R113). -/
def execAnd (dr sr1 : Reg) (_unused : BitVec 2) (sr2 : Reg) (s : State) : Result :=
  .next (State.finish (State.setRegCC dr (s.reg sr1 &&& s.reg sr2) s))

/-- AND, immediate form (R114). -/
def execAndImm (dr sr1 : Reg) (imm5 : BitVec 5) (s : State) : Result :=
  .next (State.finish (State.setRegCC dr (s.reg sr1 &&& sext imm5) s))

/-- NOT (R116). -/
def execNot (dr sr : Reg) (_unused : BitVec 6) (s : State) : Result :=
  .next (State.finish (State.setRegCC dr (s.reg sr ^^^ 0xFFFF) s))

end Sys2Proof.Machine
end

