-- ==== Sys2Proof/WellFormed.lean ====
section
/-! DEFINITION. Which terms of Instr are legal encodings (spec/30_encoding.md R95). Every field of a
constructor has exactly the width its format gives it, so a field cannot be out of range (R21), and
no combination of unused bits is illegal (R89). The one check left is the opcode: the rows
ILLEGAL_1000 and ILLEGAL_1101 are no instructions of the block. The machine gives those two a
meaning as well (the fatal stop of R210), so nothing below depends on this check. -/

namespace Sys2Proof.Instr

/-- R95: the only illegal encodings are those with op = 0b1000 or op = 0b1101.
A TRAP with an undefined vector is a legal encoding (R96). -/
def wellFormed : Instr → Bool
  | .br _ _ _ _ => true
  | .add _ _ _ _ => true
  | .addImm _ _ _ => true
  | .ld _ _ => true
  | .st _ _ => true
  | .jsr _ => true
  | .jsrr _ _ _ => true
  | .and _ _ _ _ => true
  | .andImm _ _ _ => true
  | .ldr _ _ _ => true
  | .str _ _ _ => true
  | .illegal1000 _ => false
  | .not _ _ _ => true
  | .ldi _ _ => true
  | .sti _ _ => true
  | .jmp _ _ _ => true
  | .illegal1101 _ => false
  | .lea _ _ => true
  | .trap _ _ => true

end Sys2Proof.Instr
end

