-- ==== Sys2Proof/Decode.lean ====
section
/-! DEFINITION. The decoder and the encoder (spec/30_encoding.md). The opcode map of R94 is ONE table,
`Op.code`, which both read: the fourteen numbers other than 0b1000 and 0b1101 are the published LC-3
numbers (decision D2), so that a correction is one edit. Decoding is total: every 16-bit word is one
instruction or one of the two illegal opcodes (R83, R95); the one thing refused is a program that
holds no word. -/

namespace Sys2Proof

/-- The sixteen rows of the opcode map (R94); JSR/JSRR and the two forms of ADD and AND share a row. -/
inductive Op where
  | br | add | ld | st | jsr | and | ldr | str | ill8 | not | ldi | sti | jmp | illD | lea | trap
  deriving DecidableEq, Repr

/-- The opcode map, op = bits 15:12 (R94). PRESUMED but for `ill8` and `illD` (D2), unsafe (log entry 4). -/
def Op.code : Op → BitVec 4
  | .br => 0b0000
  | .add => 0b0001
  | .ld => 0b0010
  | .st => 0b0011
  | .jsr => 0b0100
  | .and => 0b0101
  | .ldr => 0b0110
  | .str => 0b0111
  | .ill8 => 0b1000
  | .not => 0b1001
  | .ldi => 0b1010
  | .sti => 0b1011
  | .jmp => 0b1100
  | .illD => 0b1101
  | .lea => 0b1110
  | .trap => 0b1111

/-- Every row of the opcode map. -/
def Op.all : List Op :=
  [.br, .add, .ld, .st, .jsr, .and, .ldr, .str, .ill8, .not, .ldi, .sti, .jmp, .illD, .lea, .trap]

/-- The row whose number is `c`, found in the one table `Op.code`.
The sixteen numbers are all there are, so the fallback is never used (R83). -/
def Op.ofCode (c : BitVec 4) : Op := (Op.all.find? fun o => o.code == c).getD .ill8

/-- The register a 3-bit field names (R21). -/
def Reg.ofBits (b : BitVec 3) : Reg :=
  if b = 0 then .r0 else if b = 1 then .r1 else if b = 2 then .r2 else if b = 3 then .r3
  else if b = 4 then .r4 else if b = 5 then .r5 else if b = 6 then .r6 else .r7

/-- The 3-bit field that names a register (R21). -/
def Reg.toBits : Reg → BitVec 3
  | .r0 => 0
  | .r1 => 1
  | .r2 => 2
  | .r3 => 3
  | .r4 => 4
  | .r5 => 5
  | .r6 => 6
  | .r7 => 7

/-- The `n` bits of a word from bit `lo` upward; bit 0 is the least significant (R7). -/
def field (w : Word) (lo n : Nat) : BitVec n := w.extractLsb' lo n

/-- One bit of a word (R7). -/
def bit (w : Word) (k : Nat) : Bool := w.getLsbD k

/-- The register field whose lowest bit is `lo`. -/
def regField (w : Word) (lo : Nat) : Reg := Reg.ofBits (field w lo 3)

/-- Decode one instruction word by the layouts of R87 (positions: D1; D3 and D4 are PRESUMED,
unsafe, log entry 5).
Unused bits are kept, never checked (R89). -/
def decode (w : Word) : Instr :=
  match Op.ofCode (field w 12 4) with
  | .br => .br (bit w 11) (bit w 10) (bit w 9) (field w 0 9)
  | .add =>
    if bit w 5 then .addImm (regField w 9) (regField w 6) (field w 0 5)
    else .add (regField w 9) (regField w 6) (field w 3 2) (regField w 0)
  | .ld => .ld (regField w 9) (field w 0 9)
  | .st => .st (regField w 9) (field w 0 9)
  | .jsr =>
    if bit w 11 then .jsr (field w 0 11) else .jsrr (field w 9 2) (regField w 6) (field w 0 6)
  | .and =>
    if bit w 5 then .andImm (regField w 9) (regField w 6) (field w 0 5)
    else .and (regField w 9) (regField w 6) (field w 3 2) (regField w 0)
  | .ldr => .ldr (regField w 9) (regField w 6) (field w 0 6)
  | .str => .str (regField w 9) (regField w 6) (field w 0 6)
  | .ill8 => .illegal1000 (field w 0 12)
  | .not => .not (regField w 9) (regField w 6) (field w 0 6)
  | .ldi => .ldi (regField w 9) (field w 0 9)
  | .sti => .sti (regField w 9) (field w 0 9)
  | .jmp => .jmp (field w 9 3) (regField w 6) (field w 0 6)
  | .illD => .illegal1101 (field w 0 12)
  | .lea => .lea (regField w 9) (field w 0 9)
  | .trap => .trap (field w 8 4) (field w 0 8)

/-- A field put into a word with its lowest bit at bit `lo`, every other bit zero. -/
def place {n : Nat} (lo : Nat) (v : BitVec n) : Word := v.setWidth 16 <<< lo

/-- The word of an instruction: each field at the bits R87 gives it. -/
def encode : Instr → Word
  | .br n z p off9 =>
    place 12 Op.br.code ||| place 11 (BitVec.ofBool n) ||| place 10 (BitVec.ofBool z) |||
      place 9 (BitVec.ofBool p) ||| place 0 off9
  | .add dr sr1 unused sr2 =>
    place 12 Op.add.code ||| place 9 dr.toBits ||| place 6 sr1.toBits ||| place 5 0b0#1 |||
      place 3 unused ||| place 0 sr2.toBits
  | .addImm dr sr1 imm5 =>
    place 12 Op.add.code ||| place 9 dr.toBits ||| place 6 sr1.toBits ||| place 5 0b1#1 |||
      place 0 imm5
  | .ld dr off9 => place 12 Op.ld.code ||| place 9 dr.toBits ||| place 0 off9
  | .st sr off9 => place 12 Op.st.code ||| place 9 sr.toBits ||| place 0 off9
  | .jsr off11 => place 12 Op.jsr.code ||| place 11 0b1#1 ||| place 0 off11
  | .jsrr unusedHi baseR unusedLo =>
    place 12 Op.jsr.code ||| place 11 0b0#1 ||| place 9 unusedHi ||| place 6 baseR.toBits |||
      place 0 unusedLo
  | .and dr sr1 unused sr2 =>
    place 12 Op.and.code ||| place 9 dr.toBits ||| place 6 sr1.toBits ||| place 5 0b0#1 |||
      place 3 unused ||| place 0 sr2.toBits
  | .andImm dr sr1 imm5 =>
    place 12 Op.and.code ||| place 9 dr.toBits ||| place 6 sr1.toBits ||| place 5 0b1#1 |||
      place 0 imm5
  | .ldr dr baseR off6 =>
    place 12 Op.ldr.code ||| place 9 dr.toBits ||| place 6 baseR.toBits ||| place 0 off6
  | .str sr baseR off6 =>
    place 12 Op.str.code ||| place 9 sr.toBits ||| place 6 baseR.toBits ||| place 0 off6
  | .illegal1000 rest => place 12 Op.ill8.code ||| place 0 rest
  | .not dr sr unused =>
    place 12 Op.not.code ||| place 9 dr.toBits ||| place 6 sr.toBits ||| place 0 unused
  | .ldi dr off9 => place 12 Op.ldi.code ||| place 9 dr.toBits ||| place 0 off9
  | .sti sr off9 => place 12 Op.sti.code ||| place 9 sr.toBits ||| place 0 off9
  | .jmp unusedHi baseR unusedLo =>
    place 12 Op.jmp.code ||| place 9 unusedHi ||| place 6 baseR.toBits ||| place 0 unusedLo
  | .illegal1101 rest => place 12 Op.illD.code ||| place 0 rest
  | .lea dr off9 => place 12 Op.lea.code ||| place 9 dr.toBits ||| place 0 off9
  | .trap unused vect8 => place 12 Op.trap.code ||| place 8 unused ||| place 0 vect8

/-- Why a list of words holds no instruction. -/
inductive DecodeError where
  /-- There is no word left: an instruction is exactly one word (R80, R97). -/
  | noWord
  deriving DecidableEq, Repr

/-- Decode the first instruction of a list of words and give the words after it; the length of an
instruction is one word, known without decoding (R97). -/
def decodeWords : List Word → Except DecodeError (Instr × List Word)
  | [] => .error .noWord
  | w :: rest => .ok (decode w, rest)

/-- The words of a row of spec/opcode_table.json given as a number of `nbits` bits, first word lowest;
the bits above `nbits` are zero. -/
def tableWords (nbits w : Nat) : List Word :=
  if nbits = 0 then []
  else if nbits ≤ 16 then [BitVec.ofNat 16 (w % 2 ^ nbits)]
  else [BitVec.ofNat 16 w, BitVec.ofNat 16 (w / 2 ^ 16)]

/-- The instruction the decoder reads from a row of the table: the row's words must be exactly one
instruction (R80; log entry 18). -/
def decodeTableWord (nbits w : Nat) : Option Instr :=
  match decodeWords (tableWords nbits w) with
  | .ok (i, []) => some i
  | .ok (_, _ :: _) => none
  | .error _ => none

end Sys2Proof
end

