-- ==== Sys2Proof/Machine/Trap.lean ====
section
/-! DEFINITION. TRAP with the trap dispatcher (spec/43_trap.md), and the two illegal opcodes
(spec/60_exceptions.md R210). The services are run by the block itself: entry into a service saves the
return address in R7 and changes no mode (R216); the return from a service needs no instruction, the
FSM goes back to FETCH at the PC the fetch left (R217), which is `State.finish`. -/

namespace Sys2Proof.Machine

/-- The entries of the dispatcher's table (R182). -/
inductive Service where
  | getc | out | puts | input | putsp | halt
  deriving DecidableEq, Repr

/-- The service a trap vector selects; no other vector has one (R182). -/
def serviceOf (vect8 : Byte) : Option Service :=
  if vect8 = 0x20 then some .getc
  else if vect8 = 0x21 then some .out
  else if vect8 = 0x22 then some .puts
  else if vect8 = 0x23 then some .input
  else if vect8 = 0x24 then some .putsp
  else if vect8 = 0x25 then some .halt
  else none

/-- GETC up to its wait (R186): the FSM enters WAIT_INPUT. -/
def trapGetc (s : State) : State := State.enter (.waitInput .getc) s

/-- OUT (R187). -/
def trapOut (s : State) : State :=
  State.finish (State.conFlush (State.conPut (lowByte (s.reg .r0)) s))

/-- PUTS up to its first word (R188): the FSM enters STRING_OUT at x[0]. -/
def trapPuts (s : State) : State := State.enter (.stringOut .puts (s.reg .r0) false) s

/-- IN up to its wait (R190): the prompt is put before the FSM enters WAIT_INPUT; no flush (R191). -/
def trapIn (s : State) : State :=
  State.enter (.waitInput .input) (State.conPuts s.params.inPrompt s)

/-- PUTSP up to its first word (R192). -/
def trapPutsp (s : State) : State := State.enter (.stringOut .putsp (s.reg .r0) false) s

/-- HALT (R194). -/
def trapHalt (s : State) : State :=
  State.halt (State.conFlush (State.conPuts s.params.haltNotice s))

/-- `dispatch(v)` for the TRAP word `instr` (R182, R196). -/
def dispatch (vect8 : Byte) (instr : Word) (s : State) : State :=
  match serviceOf vect8 with
  | some .getc => trapGetc s
  | some .out => trapOut s
  | some .puts => trapPuts s
  | some .input => trapIn s
  | some .putsp => trapPutsp s
  | some .halt => trapHalt s
  | none => State.raiseFatal .unknownTrap instr s

/-- TRAP (R180): the link is written first, whatever the vector. -/
def execTrap (unused : BitVec 4) (vect8 : BitVec 8) (s : State) : Result :=
  .next (dispatch vect8 (encode (.trap unused vect8)) s.link)

/-- The illegal opcode 0b1000: ILLEGAL_OPCODE, and nothing else changes (R210). -/
def execIllegal1000 (rest : BitVec 12) (s : State) : Result :=
  .next (State.raiseFatal .illegalOpcode (encode (.illegal1000 rest)) s)

/-- The illegal opcode 0b1101: ILLEGAL_OPCODE, and nothing else changes (R210). -/
def execIllegal1101 (rest : BitVec 12) (s : State) : Result :=
  .next (State.raiseFatal .illegalOpcode (encode (.illegal1101 rest)) s)

end Sys2Proof.Machine
end

