-- ==== Sys2Proof/Machine/Dispatch.lean ====
section
/-! DEFINITION. EXECUTE: one handler per instruction (spec/30_encoding.md R83). -/

namespace Sys2Proof.Machine

/-- Run the handler of an instruction, in a state whose PC the fetch has already incremented (R23). -/
def exec (i : Instr) (s : State) : Host.Outcome State Fault Refusal :=
  match i with
  | .br n z p off9 => Sys2Proof.Machine.execBr n z p off9 s
  | .add dr sr1 unused sr2 => Sys2Proof.Machine.execAdd dr sr1 unused sr2 s
  | .addImm dr sr1 imm5 => Sys2Proof.Machine.execAddImm dr sr1 imm5 s
  | .ld dr off9 => Sys2Proof.Machine.execLd dr off9 s
  | .st sr off9 => Sys2Proof.Machine.execSt sr off9 s
  | .jsr off11 => Sys2Proof.Machine.execJsr off11 s
  | .jsrr unusedHi baseR unusedLo => Sys2Proof.Machine.execJsrr unusedHi baseR unusedLo s
  | .and dr sr1 unused sr2 => Sys2Proof.Machine.execAnd dr sr1 unused sr2 s
  | .andImm dr sr1 imm5 => Sys2Proof.Machine.execAndImm dr sr1 imm5 s
  | .ldr dr baseR off6 => Sys2Proof.Machine.execLdr dr baseR off6 s
  | .str sr baseR off6 => Sys2Proof.Machine.execStr sr baseR off6 s
  | .illegal1000 rest => Sys2Proof.Machine.execIllegal1000 rest s
  | .not dr sr unused => Sys2Proof.Machine.execNot dr sr unused s
  | .ldi dr off9 => Sys2Proof.Machine.execLdi dr off9 s
  | .sti sr off9 => Sys2Proof.Machine.execSti sr off9 s
  | .jmp unusedHi baseR unusedLo => Sys2Proof.Machine.execJmp unusedHi baseR unusedLo s
  | .illegal1101 rest => Sys2Proof.Machine.execIllegal1101 rest s
  | .lea dr off9 => Sys2Proof.Machine.execLea dr off9 s
  | .trap unused vect8 => Sys2Proof.Machine.execTrap unused vect8 s

end Sys2Proof.Machine
end

