-- ==== Sys2Proof/Machine/Cycle.lean ====
section
/-! DEFINITION. One step of the control FSM (spec/10_state.md R35): FETCH and EXECUTE of one instruction,
one query of the host in WAIT_INPUT, or one word of STRING_OUT. -/

namespace Sys2Proof.Machine

/-- EXECUTE of the word `instr` (R83). -/
def executeWord (instr : Word) (s : State) : Result := exec (decode instr) s

/-- A step in FETCH: a pending cancel is taken on entry, otherwise one instruction is fetched and
executed (R35, R84, R214). -/
def stepFetch (s : State) : Result :=
  if s.cancelPending then .next s.takeCancel
  else executeWord (State.memRead s.pc s).1 s.fetch

/-- GETC and IN once the host byte `c` has been taken (R186, R190): IN echoes it, then R0 and COND are
written. -/
def completeInput (svc : WaitService) (c : Byte) (s : State) : State :=
  match svc with
  | .getc => State.finish (State.setRegCC .r0 (zext c) s)
  | .input => State.finish (State.setRegCC .r0 (zext c) (State.conPut c s))

/-- A step in WAIT_INPUT: one query of `KbdTake()` (R42). With a byte and a cancel both available, the
host's draw says which is taken first (R221); with no byte the block stays where it is. -/
def stepWait (svc : WaitService) (s : State) : Result :=
  match s.polled with
  | some c =>
    if s.cancelPending && s.cancelFirst then .next s.takeCancel
    else .next (completeInput svc c s.afterQuery)
  | none => if s.cancelPending then .next s.takeCancel else .next s.afterQuery

/-- One word `w` of a PUTS walk at `ptr`, after its read (R188): the whole word must be zero to end. -/
def putsWord (ptr w : Word) (s : State) : State :=
  if w = 0x0000 then State.finish s.conFlush
  else State.enter (.stringOut .puts (ptr + 1) true) (State.conPut (lowByte w) s)

/-- One word `w` of a PUTSP walk at `ptr`, after its read (R192): low byte first, ending at the first
zero byte. -/
def putspWord (ptr w : Word) (s : State) : State :=
  if lowByte w = 0x00 then State.finish s.conFlush
  else if highByte w = 0x00 then State.finish (State.conFlush (State.conPut (lowByte w) s))
  else State.enter (.stringOut .putsp (ptr + 1) true)
    (State.conPut (highByte w) (State.conPut (lowByte w) s))

/-- One word of a walk (R34). -/
def walkWord (svc : StringService) (ptr w : Word) (s : State) : State :=
  match svc with
  | .puts => putsWord ptr w s
  | .putsp => putspWord ptr w s

/-- A step in STRING_OUT: between two words a pending cancel is taken, before the next is read (R35, R195,
R220); otherwise one word is read through the decoder and put (R55). That the first word of a walk is
read whether or not a cancel is pending is DEDUCED from R195, unsafe (log entry 21). -/
def stepString (svc : StringService) (ptr : Word) (begun : Bool) (s : State) : Result :=
  if begun && s.cancelPending then .next s.takeCancel
  else
    match State.memRead ptr s with
    | (w, s1) => .next (walkWord svc ptr w s1)

/-- One step of the block while it is RUNNING and not held in RESET. -/
def stepRunning (s : State) : Result :=
  match s.phase with
  | .reset => .next s
  | .fetch => stepFetch s
  | .execute instr => executeWord instr s
  | .waitInput svc => stepWait svc s
  | .stringOut svc ptr begun => stepString svc ptr begun s

/-- One step of the block. In RESET it fetches nothing and does no host I/O (R240); in a terminal run
state it takes no step (R33): in both the state stays as it is (log entry 8). -/
def cycle (s : State) : Result :=
  match s.run with
  | .running => stepRunning s
  | .halted => .next s
  | .fatal _ => .next s
  | .cancelled => .next s

/-- The state with the table word `w` of `nbits` bits stored at PC, ready to be fetched: RUNNING, in
FETCH, with no cancel pending. -/
def placeFetchWord (s : State) (nbits w : Nat) : State :=
  { State.memWrite s.pc (BitVec.ofNat 16 (w % 2 ^ nbits)) s with
    run := .running, phase := .fetch, cancelPending := false }

end Sys2Proof.Machine
end

