-- ==== Sys2Proof/Machine/Step.lean ====
section
/-! DEFINITION. The step of the block, and how a word comes to be the next instruction it fetches. -/

namespace Sys2Proof.Machine

/-- One step of the block (spec/10_state.md R35). -/
def step (s : State) : Host.Outcome State Fault Refusal := cycle s

/-- `s` with the instruction whose table bits are `w` stored where the next step fetches: at PC.
It stands for the boot load (spec/70_reset_and_hazards.md R246; log entry 9). -/
def State.withFetchWord (s : State) (nbits w : Nat) : State := placeFetchWord s nbits w

end Sys2Proof.Machine
end

