-- ==== Sys2Proof/Machine/Ports.lean ====
section
/-! DEFINITION. The ports through which the host acts on the block between two steps (spec/10_state.md
R40, R45 to R48), and the image loader's effect (spec/70_reset_and_hazards.md R246 to R248). The named
parameters `ENTRY_PC` and `RESET_GPR` of R6 are arguments here; `RESET_MEM` is whatever memory the
state holds while it is in RESET. -/

namespace Sys2Proof.Machine

/-- Is the FSM in the phase RESET? -/
def Phase.isReset : Phase → Bool
  | .reset => true
  | .fetch => false
  | .execute _ => false
  | .waitInput _ => false
  | .stringOut _ _ _ => false

/-- Assert `reset`: from any state the FSM goes to RESET and a pending cancel is dropped (R46, R240). -/
def State.assertReset (s : State) : State := { s with phase := .reset, cancelPending := false }

/-- Release `reset` with the strap `ENTRY_PC` and the draw `RESET_GPR` (R241 to R245): PC, COND, the
registers, the run state and the phase get their reset values; memory, the host's input and the console
output stream stay. That a word which a program or a poll stored, and no `boot_write` wrote since
power-up, keeps its value at a second reset, where R244 leaves it unspecified, is a DESIGN CHOICE,
unsafe (log entry 20). Without reset asserted there is nothing to release. -/
def State.releaseReset (entryPC : Word) (resetGpr : Regs) (s : State) : State :=
  if s.phase.isReset then
    { s with
      regs := resetGpr, pc := entryPC, cond := .z, run := .running, phase := .fetch,
      cancelPending := false }
  else s

/-- `boot_write(addr, word)`: accepted in RESET and ignored in every other phase; no device
interception (R47). -/
def State.bootWrite (a v : Word) (s : State) : State :=
  if s.phase.isReset then State.memWrite a v s else s

/-- `cancel`: asserted, it stays pending (R45); a terminal block ignores it (R33) and RESET drops it
(R240). `first` is the host's draw of R221 (log entries 10 and 11). -/
def State.assertCancel (first : Bool) (s : State) : State :=
  if s.run.terminal || s.phase.isReset || s.cancelPending then s
  else { s with cancelPending := true, cancelFirst := first }

/-- The host's input grows: further answers of the keyboard (R39(a), R41, R42). -/
def State.hostKeys (ks : List KeyEvent) (s : State) : State :=
  { s with keyboard := s.keyboard ++ ks }

/-- The `run_state` output's fatal record, shown in FATAL only (R48). -/
def State.fatalRecord (s : State) : Option FatalRecord :=
  match s.run with
  | .running => none
  | .halted => none
  | .fatal r => some r
  | .cancelled => none

/-- KBSR, the word at 0xFE00 as it is stored (R36). -/
def State.kbsr (s : State) : Word := s.peek Config.kbsrAddr

/-- KBDR, the word at 0xFE02 (R37). -/
def State.kbdr (s : State) : Word := s.peek Config.kbdrAddr

/-- What the host can do to the block between two steps. -/
inductive HostAction where
  | assertReset
  | releaseReset (entryPC : Word) (resetGpr : Regs)
  | bootWrite (a v : Word)
  | cancel (first : Bool)
  | keys (ks : List KeyEvent)
  deriving DecidableEq, Repr

/-- The effect of a host action. -/
def HostAction.act : HostAction → State → State
  | .assertReset, s => s.assertReset
  | .releaseReset entryPC resetGpr, s => s.releaseReset entryPC resetGpr
  | .bootWrite a v, s => s.bootWrite a v
  | .cancel first, s => s.assertCancel first
  | .keys ks, s => s.hostKeys ks

/-- The words of an image after its origin, from address `a` upward: each pair of bytes is one
big-endian word, words past 0xFFFF are not read (R246), a last odd byte is not loaded (R247). -/
def loadWords : Nat → List Byte → State → State
  | a, hi :: lo :: rest, s =>
    if a < Config.memoryWords then
      loadWords (a + 1) rest (s.bootWrite (BitVec.ofNat 16 a) (bigEndian hi lo))
    else s
  | _, [_], s => s
  | _, [], s => s

/-- Load one image: its first two bytes are the origin, big-endian (R246); an image shorter than two
bytes loads nothing (R247). -/
def loadImage (image : List Byte) (s : State) : State :=
  match image with
  | hi :: lo :: rest => loadWords (bigEndian hi lo).toNat rest s
  | [_] => s
  | [] => s

/-- The boot order (R248): hold reset, load the images in order, set `ENTRY_PC`, release reset. -/
def boot (images : List (List Byte)) (entryPC : Word) (resetGpr : Regs) (s : State) : State :=
  (images.foldl (fun t image => loadImage image t) s.assertReset).releaseReset entryPC resetGpr

end Sys2Proof.Machine
end

