-- ==== Sys2Proof/Safety.lean ====
section
/-! DEFINITION. What the statements about whole runs are said in: the invariant of the block's state, the
states a run can reach, and the end of a run. -/

namespace Sys2Proof.Machine

/-- A fatal record says the truth about its instruction word: ILLEGAL_OPCODE names a word whose
opcode is 0b1000 or 0b1101 (R210), UNKNOWN_TRAP a TRAP word whose vector is outside 0x20 to 0x25
(R196). Said on the bits of the word, not through the decoder. -/
def FatalRecord.truthful (r : FatalRecord) : Prop :=
  match r.reason with
  | .illegalOpcode =>
    r.faultInstr.extractLsb' 12 4 = 0b1000#4 ∨ r.faultInstr.extractLsb' 12 4 = 0b1101#4
  | .unknownTrap =>
    r.faultInstr.extractLsb' 12 4 = 0b1111#4 ∧
      ((r.faultInstr.extractLsb' 0 8).toNat < 0x20 ∨ 0x25 < (r.faultInstr.extractLsb' 0 8).toNat)

/-- The invariant of the block: it holds at reset, and every step and every host action keeps it. -/
structure State.Inv (s : State) : Prop where
  /-- Memory is in its canonical form. -/
  memCanonical : s.mem.wf = true
  /-- FETCH and EXECUTE are one step: a running block never rests in EXECUTE (R35). -/
  notMidInstruction : s.run = .running → ∀ w, s.phase ≠ .execute w
  /-- A service that waits or walks was entered by a TRAP, whose link still stands: R7 is the address
  the block will continue at (R180, R181, R252). -/
  linkedInService :
    ((∃ svc, s.phase = .waitInput svc) ∨ (∃ svc ptr begun, s.phase = .stringOut svc ptr begun)) →
      s.reg .r7 = s.pc
  /-- In FATAL the record is true of its instruction, and PC is still the address after it (R211, R213). -/
  fatalTruthful : ∀ r, s.run = .fatal r → r.truthful ∧ s.pc = r.faultPC + 1

/-- The states a run can reach from `s`: by steps, and by the host acting between two steps. -/
inductive ReachableFrom (s : State) : State → Prop where
  | start : ReachableFrom s s
  | step {t u : State} : ReachableFrom s t → step t = .next u → ReachableFrom s u
  | host {t : State} (a : HostAction) : ReachableFrom s t → ReachableFrom s (a.act t)

/-! ### What an instruction may touch, as the spec lists it

These are lists of the spec's own, written beside the meanings and not from them: the statements compare
the two. `s` is the state the handler starts in, PC already incremented. -/

/-- The general register an instruction itself writes (R22; GETC and IN write R0 later, in WAIT_INPUT). -/
def writtenReg : Instr → Option Reg
  | .br _ _ _ _ => none
  | .add dr _ _ _ => some dr
  | .addImm dr _ _ => some dr
  | .ld dr _ => some dr
  | .st _ _ => none
  | .jsr _ => some .r7
  | .jsrr _ _ _ => some .r7
  | .and dr _ _ _ => some dr
  | .andImm dr _ _ => some dr
  | .ldr dr _ _ => some dr
  | .str _ _ _ => none
  | .illegal1000 _ => none
  | .not dr _ _ => some dr
  | .ldi dr _ => some dr
  | .sti _ _ => none
  | .jmp _ _ _ => none
  | .illegal1101 _ => none
  | .lea dr _ => some dr
  | .trap _ _ => some .r7

/-- The instructions that write COND (R30). -/
def setsCond : Instr → Bool
  | .br _ _ _ _ => false
  | .add _ _ _ _ => true
  | .addImm _ _ _ => true
  | .ld _ _ => true
  | .st _ _ => false
  | .jsr _ => false
  | .jsrr _ _ _ => false
  | .and _ _ _ _ => true
  | .andImm _ _ _ => true
  | .ldr _ _ _ => true
  | .str _ _ _ => false
  | .illegal1000 _ => false
  | .not _ _ _ => true
  | .ldi _ _ => true
  | .sti _ _ => false
  | .jmp _ _ _ => false
  | .illegal1101 _ => false
  | .lea _ _ => true
  | .trap _ _ => false

/-- Where an instruction sends PC, when it writes PC at all (R24). JSRR reads its base after the link
(R137). -/
def pcTarget (i : Instr) (s : State) : Option Word :=
  match i with
  | .br n z p off9 => if brTaken n z p s.cond then some (s.pc + sext off9) else none
  | .add _ _ _ _ => none
  | .addImm _ _ _ => none
  | .ld _ _ => none
  | .st _ _ => none
  | .jsr off11 => some (s.pc + sext off11)
  | .jsrr _ baseR _ => some (if baseR = .r7 then s.pc else s.reg baseR)
  | .and _ _ _ _ => none
  | .andImm _ _ _ => none
  | .ldr _ _ _ => none
  | .str _ _ _ => none
  | .illegal1000 _ => none
  | .not _ _ _ => none
  | .ldi _ _ => none
  | .sti _ _ => none
  | .jmp _ baseR _ => some (s.reg baseR)
  | .illegal1101 _ => none
  | .lea _ _ => none
  | .trap _ _ => none

/-- The addresses an instruction reads through the decoder, in order (R55). The words the PUTS and PUTSP
services read are read later, in STRING_OUT. -/
def readAddrs (i : Instr) (s : State) : List Word :=
  match i with
  | .br _ _ _ _ => []
  | .add _ _ _ _ => []
  | .addImm _ _ _ => []
  | .ld _ off9 => [pcRel9 s.pc off9]
  | .st _ _ => []
  | .jsr _ => []
  | .jsrr _ _ _ => []
  | .and _ _ _ _ => []
  | .andImm _ _ _ => []
  | .ldr _ baseR off6 => [baseOff6 (s.reg baseR) off6]
  | .str _ _ _ => []
  | .illegal1000 _ => []
  | .not _ _ _ => []
  | .ldi _ off9 => [pcRel9 s.pc off9, (State.memRead (pcRel9 s.pc off9) s).1]
  | .sti _ off9 => [pcRel9 s.pc off9]
  | .jmp _ _ _ => []
  | .illegal1101 _ => []
  | .lea _ _ => []
  | .trap _ _ => []

/-- The address an instruction stores to and the word it stores (R160, R162, R164). -/
def storeOf (i : Instr) (s : State) : Option (Word × Word) :=
  match i with
  | .br _ _ _ _ => none
  | .add _ _ _ _ => none
  | .addImm _ _ _ => none
  | .ld _ _ => none
  | .st sr off9 => some (pcRel9 s.pc off9, s.reg sr)
  | .jsr _ => none
  | .jsrr _ _ _ => none
  | .and _ _ _ _ => none
  | .andImm _ _ _ => none
  | .ldr _ _ _ => none
  | .str sr baseR off6 => some (baseOff6 (s.reg baseR) off6, s.reg sr)
  | .illegal1000 _ => none
  | .not _ _ _ => none
  | .ldi _ _ => none
  | .sti sr off9 => some ((State.memRead (pcRel9 s.pc off9) s).1, s.reg sr)
  | .jmp _ _ _ => none
  | .illegal1101 _ => none
  | .lea _ _ => none
  | .trap _ _ => none

/-- The next step fetches: RUNNING, in FETCH, no cancel pending (R35). -/
def State.readyToFetch (s : State) : Prop :=
  s.run = .running ∧ s.phase = .fetch ∧ s.cancelPending = false

/-- The step from `s` runs the handler of instruction `i` in the state `u`: it fetches `i`, or it stands
in EXECUTE with `i`'s word. -/
def State.executes (s : State) (i : Instr) (u : State) : Prop :=
  (s.readyToFetch ∧ i = decode (State.memRead s.pc s).1 ∧ u = s.fetch) ∨
    (s.run = .running ∧ ∃ w, s.phase = .execute w ∧ i = decode w ∧ u = s)

/-- The step from `s` reads the next word of a walk at `ptr`: the block is in STRING_OUT there, and does not
stand between two words with a cancel pending (R35, R195). -/
def State.walks (s : State) (svc : StringService) (ptr : Word) : Prop :=
  s.run = .running ∧ ∃ begun, s.phase = .stringOut svc ptr begun ∧ (begun && s.cancelPending) = false

/-- The step from `s` reads 0xFE00, and so polls the keyboard (R54, R55): it fetches there, it runs an
instruction that reads there, or a walk reads its word there. -/
def State.readsKbsr (s : State) : Prop :=
  (s.readyToFetch ∧ s.pc = 0xFE00) ∨ (∃ i u, s.executes i u ∧ 0xFE00 ∈ readAddrs i u) ∨
    ∃ svc, s.walks svc 0xFE00

/-- The block is waiting in WAIT_INPUT (R34). -/
def State.waits (s : State) (svc : WaitService) : Prop :=
  s.run = .running ∧ s.phase = .waitInput svc

/-- A run has ended (R231). -/
def State.ended (s : State) : Prop := s.run.terminal = true

/-- A run has ended normally: HALTED is the only normal end (R231). -/
def State.endedNormally (s : State) : Prop := s.run = .halted

/-- A safe state: the run has not ended in a fatal condition, the block's only error end (R212, R222). -/
def State.safe (s : State) : Prop := s.fatalRecord = none

end Sys2Proof.Machine
end

