-- ==== Sys2Proof/Certificates/Slice0/Obligations.lean ====
section
/-! DEFINITION. The statements for the provers. A next state is written as the state before with the fields
that change; the model's operations in it (`Cond.ofWord`, `sext`, `State.memRead`, `State.peek`,
`Regs.set`) are each pinned down by a statement of their own. `s` in a statement about `exec` is the
state the handler starts in: PC is already the instruction's address plus 1 (R23). -/

open Sys2Proof Sys2Proof.Machine

/-! ### Encoding -/

/-- Decoding what the encoder writes gives the instruction back, every operand and every unused bit at
every value. -/
def Obligations.DecodeEncodeRoundTrip : Prop := ∀ i : Instr, decode (encode i) = i

/-- Encoding what the decoder reads gives the word back: no bit of any of the 65536 words is dropped,
and each word has one meaning. -/
def Obligations.EncodeDecodeRoundTrip : Prop := ∀ w : Word, encode (decode w) = w

/-- R95, R210: the illegal words are exactly those with opcode 0b1000 or 0b1101, and each of them,
executed, ends in FATAL(ILLEGAL_OPCODE, PC - 1, the word) with nothing else changed. That the phase too
stays what it was in a terminal run state is the model's choice: log entry 12. -/
def Obligations.IllegalOpcodesAreFatal : Prop :=
  (∀ w : Word, (decode w).wellFormed = false ↔
    (w.extractLsb' 12 4 = 0b1000#4 ∨ w.extractLsb' 12 4 = 0b1101#4)) ∧
  ∀ (w : Word) (s : State), (w.extractLsb' 12 4 = 0b1000#4 ∨ w.extractLsb' 12 4 = 0b1101#4) →
    exec (decode w) s = .next { s with run := .fatal ⟨.illegalOpcode, s.pc - 1, w⟩ }

/-- Words the spec writes out, one or more for each format, decode to what the spec says they are. -/
def Obligations.SpecWordsDecode : Prop :=
  decode 0x1401 = .add .r2 .r0 0b00 .r1 ∧ decode 0x127F = .addImm .r1 .r1 0b11111 ∧
  decode 0x5401 = .and .r2 .r0 0b00 .r1 ∧ decode 0x5020 = .andImm .r0 .r0 0b00000 ∧
  decode 0x967F = .not .r3 .r1 0b111111 ∧ decode 0x0402 = .br false true false 2 ∧
  decode 0xC1C0 = .jmp 0b000 .r7 0b000000 ∧ decode 0x4803 = .jsr 3 ∧
  decode 0x4080 = .jsrr 0b00 .r2 0b000000 ∧ decode 0x2208 = .ld .r1 8 ∧
  decode 0xA406 = .ldi .r2 6 ∧ decode 0x647F = .ldr .r2 .r1 0b111111 ∧
  decode 0xE002 = .lea .r0 2 ∧ decode 0x3001 = .st .r0 1 ∧ decode 0xB001 = .sti .r0 1 ∧
  decode 0x7640 = .str .r3 .r1 0 ∧ decode 0xFF25 = .trap 0b1111 0x25 ∧
  decode 0x8000 = .illegal1000 0 ∧ decode 0xDFFF = .illegal1101 0xFFF

/-- R89: unused bits never change what an instruction does, and none make a word illegal. A TRAP with an undefined vector does the same
too, but that the fatal record holds the fetched word, unused bits included (R211). -/
def Obligations.UnusedBitsIgnored : Prop :=
  (∀ w : Word, w.extractLsb' 12 4 ≠ 0b1000#4 → w.extractLsb' 12 4 ≠ 0b1101#4 →
    (decode w).wellFormed = true) ∧
  ∀ s : State,
    (∀ dr sr1 sr2 u v, exec (.add dr sr1 u sr2) s = exec (.add dr sr1 v sr2) s) ∧
    (∀ dr sr1 sr2 u v, exec (.and dr sr1 u sr2) s = exec (.and dr sr1 v sr2) s) ∧
    (∀ dr sr u v, exec (.not dr sr u) s = exec (.not dr sr v) s) ∧
    (∀ b u u' v v', exec (.jmp u b u') s = exec (.jmp v b v') s) ∧
    (∀ b u u' v v', exec (.jsrr u b u') s = exec (.jsrr v b v') s) ∧
    (∀ x u v, (0x20 ≤ x.toNat ∧ x.toNat ≤ 0x25) → exec (.trap u x) s = exec (.trap v x) s) ∧
    (∀ x u v, (x.toNat < 0x20 ∨ 0x25 < x.toNat) → ∃ t,
      exec (.trap u x) s = .next t ∧
      exec (.trap v x) s = .next
        { t with run := .fatal ⟨.unknownTrap, s.pc - 1, encode (.trap v x)⟩ })

/-! ### Operand forms and the condition code -/

/-- R20, R21: the register file. A write changes the register named and no other, to any value and for
every register; field value i names R_i. -/
def Obligations.RegisterFileIsPlain : Prop :=
  (∀ (g : Regs) (r x : Reg) (v : Word), (g.set r v).get x = if x = r then v else g.get x) ∧
  (∀ g : Regs, [g.get .r0, g.get .r1, g.get .r2, g.get .r3, g.get .r4, g.get .r5, g.get .r6, g.get .r7] =
    [g.r0, g.r1, g.r2, g.r3, g.r4, g.r5, g.r6, g.r7]) ∧
  [0, 1, 2, 3, 4, 5, 6, 7].map (fun i => Reg.ofBits (BitVec.ofNat 3 i)) =
    [.r0, .r1, .r2, .r3, .r4, .r5, .r6, .r7]

/-- R9: sign extension, for every width up to a word: where the top bit is set the upper bits become 1,
otherwise the value is unchanged; so it keeps the signed value. -/
def Obligations.SignExtensionKeepsValue : Prop :=
  ∀ (n : Nat) (v : BitVec n), 0 < n → n ≤ 16 →
    (v.getLsbD (n - 1) = true → sext v = v.setWidth 16 ||| ((0xFFFF : Word) <<< n)) ∧
    (v.getLsbD (n - 1) = false → sext v = v.setWidth 16) ∧
    (sext v).toInt = v.toInt

/-- R27, R11, R28: `setcc` classifies the word as signed, and COND's bits are 100, 010 and 001. -/
def Obligations.SetccClassifiesSign : Prop :=
  (∀ v : Word, (Cond.ofWord v = .z ↔ v = 0x0000) ∧
    (Cond.ofWord v = .n ↔ v.getLsbD 15 = true) ∧ (Cond.ofWord v = .n ↔ v.toInt < 0) ∧
    (Cond.ofWord v = .p ↔ 0x0001 ≤ v.toNat ∧ v.toNat ≤ 0x7FFF)) ∧
  Cond.n.bits = 0b100 ∧ Cond.z.bits = 0b010 ∧ Cond.p.bits = 0b001

/-! ### Operate instructions -/

/-- R110: ADD, register form. -/
def Obligations.AddRegisterForm : Prop :=
  (∀ w : Word, w.extractLsb' 12 4 = 0b0001#4 → w.getLsbD 5 = false →
    decode w = .add (Reg.ofBits (w.extractLsb' 9 3)) (Reg.ofBits (w.extractLsb' 6 3))
      (w.extractLsb' 3 2) (Reg.ofBits (w.extractLsb' 0 3))) ∧
  ∀ (dr sr1 : Reg) (u : BitVec 2) (sr2 : Reg) (s : State),
    exec (.add dr sr1 u sr2) s = .next { s with
      regs := s.regs.set dr (s.reg sr1 + s.reg sr2)
      cond := Cond.ofWord (s.reg sr1 + s.reg sr2)
      phase := .fetch }

/-- R111: ADD, immediate form. -/
def Obligations.AddImmediateForm : Prop :=
  (∀ w : Word, w.extractLsb' 12 4 = 0b0001#4 → w.getLsbD 5 = true →
    decode w = .addImm (Reg.ofBits (w.extractLsb' 9 3)) (Reg.ofBits (w.extractLsb' 6 3))
      (w.extractLsb' 0 5)) ∧
  ∀ (dr sr1 : Reg) (imm5 : BitVec 5) (s : State),
    exec (.addImm dr sr1 imm5) s = .next { s with
      regs := s.regs.set dr (s.reg sr1 + sext imm5)
      cond := Cond.ofWord (s.reg sr1 + sext imm5)
      phase := .fetch }

/-- R113: AND, register form. -/
def Obligations.AndRegisterForm : Prop :=
  (∀ w : Word, w.extractLsb' 12 4 = 0b0101#4 → w.getLsbD 5 = false →
    decode w = .and (Reg.ofBits (w.extractLsb' 9 3)) (Reg.ofBits (w.extractLsb' 6 3))
      (w.extractLsb' 3 2) (Reg.ofBits (w.extractLsb' 0 3))) ∧
  ∀ (dr sr1 : Reg) (u : BitVec 2) (sr2 : Reg) (s : State),
    exec (.and dr sr1 u sr2) s = .next { s with
      regs := s.regs.set dr (s.reg sr1 &&& s.reg sr2)
      cond := Cond.ofWord (s.reg sr1 &&& s.reg sr2)
      phase := .fetch }

/-- R114: AND, immediate form. -/
def Obligations.AndImmediateForm : Prop :=
  (∀ w : Word, w.extractLsb' 12 4 = 0b0101#4 → w.getLsbD 5 = true →
    decode w = .andImm (Reg.ofBits (w.extractLsb' 9 3)) (Reg.ofBits (w.extractLsb' 6 3))
      (w.extractLsb' 0 5)) ∧
  ∀ (dr sr1 : Reg) (imm5 : BitVec 5) (s : State),
    exec (.andImm dr sr1 imm5) s = .next { s with
      regs := s.regs.set dr (s.reg sr1 &&& sext imm5)
      cond := Cond.ofWord (s.reg sr1 &&& sext imm5)
      phase := .fetch }

/-- R116: NOT is the bitwise complement. -/
def Obligations.NotComplements : Prop :=
  (∀ w : Word, w.extractLsb' 12 4 = 0b1001#4 →
    decode w = .not (Reg.ofBits (w.extractLsb' 9 3)) (Reg.ofBits (w.extractLsb' 6 3))
      (w.extractLsb' 0 6)) ∧
  ∀ (dr sr : Reg) (u : BitVec 6) (s : State),
    exec (.not dr sr u) s = .next { s with
      regs := s.regs.set dr (~~~ s.reg sr)
      cond := Cond.ofWord (~~~ s.reg sr)
      phase := .fetch }

/-- R112: ADD is the sum modulo 65536, for the unsigned and for the signed reading of its operands, and
the immediate form gives the state the register form gives with `sext_5(v)` in SR2. -/
def Obligations.AddIsModularSum : Prop :=
  ∀ (dr sr1 : Reg) (u : BitVec 2) (sr2 : Reg) (imm5 : BitVec 5) (s : State), ∃ t,
    exec (.add dr sr1 u sr2) s = .next t ∧
    (t.reg dr).toNat = ((s.reg sr1).toNat + (s.reg sr2).toNat) % 65536 ∧
    (t.reg dr).toInt = ((s.reg sr1).toInt + (s.reg sr2).toInt).bmod 65536 ∧
    (∀ x, x ≠ dr → t.reg x = s.reg x) ∧
    t = { s with regs := t.regs, cond := Cond.ofWord (t.reg dr), phase := .fetch } ∧
    (s.reg sr2 = sext imm5 → exec (.addImm dr sr1 imm5) s = .next t)

/-! ### Control transfer -/

/-- R130: BR. -/
def Obligations.BranchTestsCond : Prop :=
  (∀ w : Word, w.extractLsb' 12 4 = 0b0000#4 →
    decode w = .br (w.getLsbD 11) (w.getLsbD 10) (w.getLsbD 9) (w.extractLsb' 0 9)) ∧
  ∀ (n z p : Bool) (off9 : BitVec 9) (s : State),
    exec (.br n z p off9) s = .next { s with
      pc := if ((BitVec.ofBool n ++ BitVec.ofBool z ++ BitVec.ofBool p : BitVec 3) &&& s.cond.bits) ≠ 0b000
        then s.pc + sext off9 else s.pc
      phase := .fetch }

/-- R131: a BR that tests one bit is taken exactly when COND holds that bit. -/
def Obligations.BranchOnOneBit : Prop :=
  ∀ (off9 : BitVec 9) (s : State),
    exec (.br true false false off9) s = .next { s with
      pc := if s.cond = .n then s.pc + sext off9 else s.pc, phase := .fetch } ∧
    exec (.br false true false off9) s = .next { s with
      pc := if s.cond = .z then s.pc + sext off9 else s.pc, phase := .fetch } ∧
    exec (.br false false true off9) s = .next { s with
      pc := if s.cond = .p then s.pc + sext off9 else s.pc, phase := .fetch }

/-- R133, R134: JMP, and RET as JMP with base R7. -/
def Obligations.JumpThroughRegister : Prop :=
  (∀ w : Word, w.extractLsb' 12 4 = 0b1100#4 →
    decode w = .jmp (w.extractLsb' 9 3) (Reg.ofBits (w.extractLsb' 6 3)) (w.extractLsb' 0 6)) ∧
  decode 0xC1C0 = .jmp 0 .r7 0 ∧
  ∀ (u : BitVec 3) (b : Reg) (v : BitVec 6) (s : State),
    exec (.jmp u b v) s = .next { s with pc := s.reg b, phase := .fetch }

/-- R136: JSR. -/
def Obligations.JsrLinksAndJumps : Prop :=
  (∀ w : Word, w.extractLsb' 12 4 = 0b0100#4 → w.getLsbD 11 = true →
    decode w = .jsr (w.extractLsb' 0 11)) ∧
  ∀ (off11 : BitVec 11) (s : State),
    exec (.jsr off11) s = .next { s with
      regs := s.regs.set .r7 s.pc, pc := s.pc + sext off11, phase := .fetch }

/-- R137: JSRR links before it reads its base, so JSRR R7 continues at the next instruction. -/
def Obligations.JsrrLinksBeforeBase : Prop :=
  (∀ w : Word, w.extractLsb' 12 4 = 0b0100#4 → w.getLsbD 11 = false →
    decode w = .jsrr (w.extractLsb' 9 2) (Reg.ofBits (w.extractLsb' 6 3)) (w.extractLsb' 0 6)) ∧
  ∀ (u : BitVec 2) (b : Reg) (v : BitVec 6) (s : State),
    exec (.jsrr u b v) s = .next { s with
      regs := s.regs.set .r7 s.pc, pc := if b = .r7 then s.pc else s.reg b, phase := .fetch }

/-- R138: after a step that runs either call form, R7 is the call's address plus 1. -/
def Obligations.CallsLinkNextAddress : Prop :=
  ∀ s : State, s.readyToFetch → (State.memRead s.pc s).1.extractLsb' 12 4 = 0b0100#4 →
    ∃ t, step s = .next t ∧ t.reg .r7 = s.pc + 1

/-! ### Memory and the address decoder -/

/-- R56: a store changes the word at its address and nothing else, at every address; it polls nothing and
puts nothing. -/
def Obligations.MemWriteIsPlain : Prop :=
  ∀ (s : State) (a v : Word), s.mem.wf = true →
    (∀ x, (State.memWrite a v s).peek x = if x = a then v else s.peek x) ∧
    State.memWrite a v s = { s with mem := (State.memWrite a v s).mem }

/-- R53, R54: a read of any address but 0xFE00 returns the word stored there and has no effect. A read of
0xFE00 uses up one answer of the host: with a character c it returns 0x8000, and 0xFE00 holds 0x8000
and 0xFE02 holds c zero-extended; with none it returns 0x0000 and only 0xFE00 is rewritten. That the
host's input is a list of answers, and that a poll answered `idle` uses that answer up (it removes no
character, R41), is the model's choice: log entry 7. -/
def Obligations.MemReadPollsKbsr : Prop :=
  ∀ s : State, s.mem.wf = true →
    (∀ a, a ≠ 0xFE00 → State.memRead a s = (s.peek a, s)) ∧
    (∀ c rest, s.keyboard = .key c :: rest → ∃ t, State.memRead 0xFE00 s = (0x8000, t) ∧
      t = { s with mem := t.mem, keyboard := rest } ∧
      ∀ x, t.peek x = if x = 0xFE00 then 0x8000 else if x = 0xFE02 then c.setWidth 16 else s.peek x) ∧
    ((s.keyboard = [] ∨ ∃ rest, s.keyboard = .idle :: rest) → ∃ t, State.memRead 0xFE00 s = (0x0000, t) ∧
      t = { s with mem := t.mem, keyboard := s.keyboard.tail } ∧
      ∀ x, t.peek x = if x = 0xFE00 then 0x0000 else s.peek x)

/-- R55: the host is polled once for each read whose address is 0xFE00 and never otherwise: by the fetch,
by each read of an instruction, and by each word of a PUTS or PUTSP walk. Polls are counted by the
answers used up, an `idle` one too (it removes no character, R41), which is the model's choice: log
entry 7. -/
def Obligations.PollsCountReadsOfKbsr : Prop :=
  (∀ s : State, s.fetch.keyboard = s.keyboard.drop ([s.pc].count 0xFE00)) ∧
  (∀ (i : Instr) (s t : State), exec i s = .next t →
    t.keyboard = s.keyboard.drop ((readAddrs i s).count 0xFE00)) ∧
  (∀ (svc : StringService) (ptr : Word) (s t : State), s.walks svc ptr → step s = .next t →
    t.keyboard = s.keyboard.drop ([ptr].count 0xFE00))

/-! ### Loads, stores and LEA -/

/-- R150: LD. -/
def Obligations.LoadPcRelative : Prop :=
  (∀ w : Word, w.extractLsb' 12 4 = 0b0010#4 →
    decode w = .ld (Reg.ofBits (w.extractLsb' 9 3)) (w.extractLsb' 0 9)) ∧
  ∀ (dr : Reg) (off9 : BitVec 9) (s : State),
    let r := State.memRead (s.pc + sext off9) s
    exec (.ld dr off9) s = .next { r.2 with
      regs := s.regs.set dr r.1, cond := Cond.ofWord r.1, phase := .fetch }

/-- R152: LDI reads the pointer, then the data. -/
def Obligations.LoadIndirect : Prop :=
  (∀ w : Word, w.extractLsb' 12 4 = 0b1010#4 →
    decode w = .ldi (Reg.ofBits (w.extractLsb' 9 3)) (w.extractLsb' 0 9)) ∧
  ∀ (dr : Reg) (off9 : BitVec 9) (s : State),
    let r := State.memRead (s.pc + sext off9) s
    let q := State.memRead r.1 r.2
    exec (.ldi dr off9) s = .next { q.2 with
      regs := s.regs.set dr q.1, cond := Cond.ofWord q.1, phase := .fetch }

/-- R154: LDR; the address is formed from the base's old value. -/
def Obligations.LoadBaseOffset : Prop :=
  (∀ w : Word, w.extractLsb' 12 4 = 0b0110#4 →
    decode w = .ldr (Reg.ofBits (w.extractLsb' 9 3)) (Reg.ofBits (w.extractLsb' 6 3)) (w.extractLsb' 0 6)) ∧
  ∀ (dr b : Reg) (off6 : BitVec 6) (s : State),
    let r := State.memRead (s.reg b + sext off6) s
    exec (.ldr dr b off6) s = .next { r.2 with
      regs := s.regs.set dr r.1, cond := Cond.ofWord r.1, phase := .fetch }

/-- R156: LEA loads the address, reads no memory and sets COND. -/
def Obligations.LoadEffectiveAddress : Prop :=
  (∀ w : Word, w.extractLsb' 12 4 = 0b1110#4 →
    decode w = .lea (Reg.ofBits (w.extractLsb' 9 3)) (w.extractLsb' 0 9)) ∧
  ∀ (dr : Reg) (off9 : BitVec 9) (s : State),
    exec (.lea dr off9) s = .next { s with
      regs := s.regs.set dr (s.pc + sext off9), cond := Cond.ofWord (s.pc + sext off9), phase := .fetch }

/-- R160: ST stores SR at PC + sext_9(PCoffset9): that word changes, every other word reads as before. -/
def Obligations.StorePcRelative : Prop :=
  (∀ w : Word, w.extractLsb' 12 4 = 0b0011#4 →
    decode w = .st (Reg.ofBits (w.extractLsb' 9 3)) (w.extractLsb' 0 9)) ∧
  ∀ (sr : Reg) (off9 : BitVec 9) (s : State), s.mem.wf = true → ∃ t,
    exec (.st sr off9) s = .next t ∧ t = { s with mem := t.mem, phase := .fetch } ∧
    ∀ a, t.peek a = if a = s.pc + sext off9 then s.reg sr else s.peek a

/-- R162: STI reads the pointer through the decoder, then stores SR where it points: that word changes,
every other word reads as it does after the pointer read. -/
def Obligations.StoreIndirect : Prop :=
  (∀ w : Word, w.extractLsb' 12 4 = 0b1011#4 →
    decode w = .sti (Reg.ofBits (w.extractLsb' 9 3)) (w.extractLsb' 0 9)) ∧
  ∀ (sr : Reg) (off9 : BitVec 9) (s : State), s.mem.wf = true →
    let r := State.memRead (s.pc + sext off9) s
    ∃ t, exec (.sti sr off9) s = .next t ∧ t = { r.2 with mem := t.mem, phase := .fetch } ∧
      ∀ a, t.peek a = if a = r.1 then s.reg sr else r.2.peek a

/-- R164: STR stores SR at BaseR + sext_6(offset6): that word changes, every other word reads as before. -/
def Obligations.StoreBaseOffset : Prop :=
  (∀ w : Word, w.extractLsb' 12 4 = 0b0111#4 →
    decode w = .str (Reg.ofBits (w.extractLsb' 9 3)) (Reg.ofBits (w.extractLsb' 6 3)) (w.extractLsb' 0 6)) ∧
  ∀ (sr b : Reg) (off6 : BitVec 6) (s : State), s.mem.wf = true → ∃ t,
    exec (.str sr b off6) s = .next t ∧ t = { s with mem := t.mem, phase := .fetch } ∧
    ∀ a, t.peek a = if a = s.reg b + sext off6 then s.reg sr else s.peek a

/-- R70: the fetch is coherent with stores at once. After any store to an address other than 0xFE00, a
fetch from that address, at the very next step too, runs the word just stored. -/
def Obligations.StoreSeenByNextFetch : Prop :=
  ∀ (i : Instr) (s : State) (a v : Word), s.mem.wf = true → s.run = .running → s.cancelPending = false →
    storeOf i s = some (a, v) → a ≠ 0xFE00 → ∃ t,
      exec i s = .next t ∧
      step { t with pc := a } = exec (decode v) { t with pc := a + 1, phase := .execute v }

/-! ### TRAP and its services -/

/-- R186: GETC. R7 is linked and the FSM waits; the byte the host supplies goes to R0, zero-extended, and
COND is Z for the byte 0 and P for any other; nothing is echoed. -/
def Obligations.GetcService : Prop :=
  (∀ (u : BitVec 4) (s : State), exec (.trap u 0x20) s = .next { s with
    regs := s.regs.set .r7 s.pc, phase := .waitInput .getc }) ∧
  ∀ (s : State) (c : Byte) (rest : List KeyEvent), s.waits .getc → s.keyboard = .key c :: rest →
    s.cancelPending = false → step s = .next { s with
      keyboard := rest
      regs := s.regs.set .r0 (c.setWidth 16)
      cond := if c = 0x00 then .z else .p
      phase := .fetch }

/-- R187: OUT puts the low 8 bits of R0 and flushes. -/
def Obligations.OutService : Prop :=
  ∀ (u : BitVec 4) (s : State), exec (.trap u 0x21) s = .next { s with
    regs := s.regs.set .r7 s.pc
    console := s.console ++ [.put ((s.reg .r0).extractLsb' 0 8), .flush]
    phase := .fetch }

/-- R188: PUTS. R7 is linked and the walk starts at R0; each step reads one word through the decoder: a
zero word ends the walk with a flush, any other puts its low byte and goes on at the next address. -/
def Obligations.PutsService : Prop :=
  (∀ (u : BitVec 4) (s : State), exec (.trap u 0x22) s = .next { s with
    regs := s.regs.set .r7 s.pc, phase := .stringOut .puts (s.reg .r0) false }) ∧
  ∀ (s : State) (ptr : Word), s.walks .puts ptr → s.cancelPending = false →
    let r := State.memRead ptr s
    step s = .next (if r.1 = 0x0000
      then { r.2 with console := s.console ++ [.flush], phase := .fetch }
      else { r.2 with
        console := s.console ++ [.put (r.1.extractLsb' 0 8)]
        phase := .stringOut .puts (ptr + 1) true })

/-- R190, R191: IN. R7 is linked, the prompt is put and the FSM waits; the byte is echoed and goes to R0,
zero-extended, and COND is Z for the byte 0 and P for any other; nothing is flushed. -/
def Obligations.InService : Prop :=
  (∀ (u : BitVec 4) (s : State), exec (.trap u 0x23) s = .next { s with
    regs := s.regs.set .r7 s.pc
    console := s.console ++ s.params.inPrompt.map ConsoleEvent.put
    phase := .waitInput .input }) ∧
  ∀ (s : State) (c : Byte) (rest : List KeyEvent), s.waits .input → s.keyboard = .key c :: rest →
    s.cancelPending = false → step s = .next { s with
      keyboard := rest
      console := s.console ++ [.put c]
      regs := s.regs.set .r0 (c.setWidth 16)
      cond := if c = 0x00 then .z else .p
      phase := .fetch }

/-- R192: PUTSP. As PUTS, with two characters a word, low byte first, ending at the first zero byte. -/
def Obligations.PutspService : Prop :=
  (∀ (u : BitVec 4) (s : State), exec (.trap u 0x24) s = .next { s with
    regs := s.regs.set .r7 s.pc, phase := .stringOut .putsp (s.reg .r0) false }) ∧
  ∀ (s : State) (ptr : Word), s.walks .putsp ptr → s.cancelPending = false →
    let r := State.memRead ptr s
    let lo := r.1.extractLsb' 0 8
    let hi := r.1.extractLsb' 8 8
    step s = .next (
      if lo = 0x00 then { r.2 with console := s.console ++ [.flush], phase := .fetch }
      else if hi = 0x00 then { r.2 with console := s.console ++ [.put lo, .flush], phase := .fetch }
      else { r.2 with
        console := s.console ++ [.put lo, .put hi], phase := .stringOut .putsp (ptr + 1) true })

/-- R194: HALT puts the notice, flushes and stops the block in HALTED. That the phase stays what it was in a
terminal run state is the model's choice: log entry 12. -/
def Obligations.HaltService : Prop :=
  ∀ (u : BitVec 4) (s : State), exec (.trap u 0x25) s = .next { s with
    regs := s.regs.set .r7 s.pc
    console := s.console ++ s.params.haltNotice.map ConsoleEvent.put ++ [.flush]
    run := .halted }

/-- R196: a TRAP with any other vector links R7 and ends in FATAL(UNKNOWN_TRAP, PC - 1, its word). The
word is any whose opcode is 0b1111 and whose vector is outside 0x20 to 0x25. That the phase stays what it
was in a terminal run state is the model's choice: log entry 12. -/
def Obligations.UnknownVectorIsFatal : Prop :=
  ∀ (w : Word) (s : State), w.extractLsb' 12 4 = 0b1111#4 →
    ((w.extractLsb' 0 8).toNat < 0x20 ∨ 0x25 < (w.extractLsb' 0 8).toNat) →
    exec (decode w) s = .next { s with
      regs := s.regs.set .r7 s.pc, run := .fatal ⟨.unknownTrap, s.pc - 1, w⟩ }

/-- R181: TRAP reads no memory, the vector table's words among it, and changes neither memory nor PC: with
any other memory it does the same. -/
def Obligations.TrapReadsNoVectorTable : Prop :=
  ∀ (u : BitVec 4) (x : BitVec 8) (s : State), ∃ t,
    exec (.trap u x) s = .next t ∧ t.pc = s.pc ∧ t.mem = s.mem ∧
    ∀ m, exec (.trap u x) { s with mem := m } = .next { t with mem := m }

/-- R188 as a whole: from the TRAP x22 itself, a string of words none of which is zero, followed by a zero
word and nowhere at 0xFE00, is put character by character and flushed, and the block is back at the
instruction after the TRAP, after one step for the TRAP and one for each word read. A string through
0xFE00, and a TRAP word with unused bits set, are left to PutsService and UnusedBitsIgnored. -/
def Obligations.PutsPrintsString : Prop :=
  ∀ (ws : List Word) (s : State), s.readyToFetch → s.pc ≠ 0xFE00 → s.peek s.pc = 0xF022 →
    (∀ k (h : k < ws.length), s.reg .r0 + BitVec.ofNat 16 k ≠ 0xFE00 ∧
      s.peek (s.reg .r0 + BitVec.ofNat 16 k) = ws[k] ∧ ws[k] ≠ 0x0000) →
    s.reg .r0 + BitVec.ofNat 16 ws.length ≠ 0xFE00 →
    s.peek (s.reg .r0 + BitVec.ofNat 16 ws.length) = 0x0000 →
    Host.Core.run Sys2Proof.core (ws.length + 2) s = .next { s with
      pc := s.pc + 1
      regs := s.regs.set .r7 (s.pc + 1)
      console := s.console ++ ws.map (fun w => ConsoleEvent.put (w.extractLsb' 0 8)) ++ [.flush] }

/-- A walk that meets no terminating word goes on (R189): as long as no word read ends it, the block is
still in STRING_OUT after n steps, at the n-th next address. -/
def Obligations.WalkWithoutEndGoesOn : Prop :=
  (∀ (n : Nat) (s : State) (ptr : Word), s.walks .puts ptr → s.cancelPending = false →
    (∀ k t, k < n → Host.Core.run Sys2Proof.core k s = .next t →
      (State.memRead (ptr + BitVec.ofNat 16 k) t).1 ≠ 0x0000) →
    ∃ t, Host.Core.run Sys2Proof.core n s = .next t ∧ t.walks .puts (ptr + BitVec.ofNat 16 n) ∧
      t.cancelPending = false) ∧
  (∀ (n : Nat) (s : State) (ptr : Word), s.walks .putsp ptr → s.cancelPending = false →
    (∀ k t, k < n → Host.Core.run Sys2Proof.core k s = .next t →
      (State.memRead (ptr + BitVec.ofNat 16 k) t).1.extractLsb' 0 8 ≠ 0x00 ∧
      (State.memRead (ptr + BitVec.ofNat 16 k) t).1.extractLsb' 8 8 ≠ 0x00) →
    ∃ t, Host.Core.run Sys2Proof.core n s = .next t ∧ t.walks .putsp (ptr + BitVec.ofNat 16 n) ∧
      t.cancelPending = false)

/-- A PUTSP walk always ends, within 65536 words: it reaches 0xFE00 at the latest, and the word a read of
0xFE00 returns has a zero low byte whether or not a key is pending. The registers and PC are as they
were. So the walk without end that R189 allows for never happens in PUTSP: a consequence of R53 to R55,
with no cancel pending. -/
def Obligations.PutspWalkEnds : Prop :=
  ∀ (s : State) (ptr : Word), s.mem.wf = true → s.walks .putsp ptr → s.cancelPending = false →
    ∃ k t, k ≤ 65536 ∧
    Host.Core.run Sys2Proof.core k s = .next t ∧ t.readyToFetch ∧ t.regs = s.regs ∧ t.pc = s.pc

/-! ### The step and the run state -/

/-- R82, R84: a step of a block that is ready to fetch reads the word at PC through the decoder, adds one to
PC and runs the instruction the word decodes to. -/
def Obligations.StepRunsFetchedInstruction : Prop :=
  ∀ s : State, s.readyToFetch →
    let r := State.memRead s.pc s
    step s = exec (decode r.1) { r.2 with pc := s.pc + 1, phase := .execute r.1 }

/-- No instruction and no step faults or is refused, whatever the state: every access is allowed (R62) and
the two error conditions are run states (R212). That a blocked step answers the same state is the model's
choice: log entry 8. -/
def Obligations.EveryStepAnswersNext : Prop :=
  (∀ (i : Instr) (s : State), ∃ t, exec i s = .next t) ∧ ∀ s : State, ∃ t, step s = .next t

/-- R33: in a terminal run state the block takes no step and ignores every input of the block but reset.
That taking no step is a step that answers the same state is the model's choice: log entry 8. -/
def Obligations.TerminalStatesAreFinal : Prop :=
  ∀ s : State, s.run.terminal = true →
    step s = .next s ∧ (∀ first, s.assertCancel first = s) ∧
    (s.phase ≠ .reset → (∀ a v, s.bootWrite a v = s) ∧ ∀ e g, s.releaseReset e g = s)

/-- R211, R213: a fatal stop names the instruction that was fetched, and its effects are exactly the ones
its rule lists: the fetch (with the poll a fetch at 0xFE00 makes), and the link of R7 for UNKNOWN_TRAP.
The FSM stops: nothing more is fetched. That a step of a stopped block answers the same state is the
model's choice, log entry 8, and so is the phase EXECUTE that it keeps, log entry 12. -/
def Obligations.FatalNamesFetchedInstruction : Prop :=
  ∀ (s t : State) (r : FatalRecord), s.readyToFetch → step s = .next t → t.run = .fatal r →
    r.faultPC = s.pc ∧ r.faultInstr = (State.memRead s.pc s).1 ∧
    t = { s.fetch with
      run := .fatal r
      regs := if r.reason = .unknownTrap then s.regs.set .r7 (s.pc + 1) else s.regs } ∧
    step t = .next t ∧ FatalReason.illegalOpcode.code = 1 ∧ FatalReason.unknownTrap.code = 2

/-- R22: which registers a step can change: the one its instruction writes, or R0 when GETC or IN takes its
byte. -/
def Obligations.RegisterWriters : Prop :=
  ∀ (s t : State) (r : Reg), step s = .next t → t.reg r ≠ s.reg r →
    (∃ i u, s.executes i u ∧ writtenReg i = some r) ∨ ((∃ svc, s.waits svc) ∧ r = .r0)

/-- R30: which steps can change COND: those of the instructions that set flags, and GETC or IN taking its
byte; of the host's actions, the release of reset alone. And which read it: a step that runs no BR does
the same under any other COND, and leaves either the same new COND (it wrote COND) or the COND it was
given (it left COND alone). -/
def Obligations.CondWritersAndReaders : Prop :=
  (∀ (s t : State), step s = .next t → t.cond ≠ s.cond →
    (∃ i u, s.executes i u ∧ setsCond i = true) ∨ ∃ svc, s.waits svc) ∧
  (∀ (a : HostAction) (s : State), (a.act s).cond = s.cond ∨
    ∃ e g, a = .releaseReset e g ∧ (a.act s).cond = .z) ∧
  (∀ (s t : State) (c : Cond), step s = .next t →
    (¬ ∃ n z p off9 u, s.executes (.br n z p off9) u) →
    ∃ c', step { s with cond := c } = .next { t with cond := c' } ∧
      (c' = t.cond ∨ (c' = c ∧ t.cond = s.cond)))

/-- R24: how PC changes: the fetch adds one; a step that runs an instruction leaves PC at the instruction's target when it has
one and as the fetch left it otherwise; every other step leaves PC alone; reset sets it to ENTRY_PC,
and no other action of the host touches it. -/
def Obligations.PcChanges : Prop :=
  (∀ s : State, s.fetch.pc = s.pc + 1) ∧
  (∀ (s t u : State) (i : Instr), step s = .next t → s.executes i u →
    t.pc = (pcTarget i u).getD u.pc) ∧
  (∀ (s t : State), step s = .next t → (¬ ∃ i u, s.executes i u) → t.pc = s.pc) ∧
  (∀ (a : HostAction) (s : State), (a.act s).pc = s.pc ∨ ∃ e g, a = .releaseReset e g ∧ (a.act s).pc = e)

/-- Which memory words a step can change: the word its instruction stores to, and 0xFE00 and 0xFE02 by a
poll, in a step that reads 0xFE00 (R54, R67, R197). -/
def Obligations.MemoryWriters : Prop :=
  ∀ (s t : State) (a : Word), s.mem.wf = true → step s = .next t → t.peek a ≠ s.peek a →
    (∃ i u v, s.executes i u ∧ storeOf i u = some (a, v)) ∨
      ((a = 0xFE00 ∨ a = 0xFE02) ∧ s.readsKbsr)

/-- The console only grows, and only by a TRAP or while a service runs (R43, R227); the host's input is only
used up from its front (R41, R42); no step changes the parameters. -/
def Obligations.StreamsMoveForward : Prop :=
  ∀ (s t : State), step s = .next t →
    (∃ out, t.console = s.console ++ out ∧
      (out ≠ [] → (∃ x v u, s.executes (.trap x v) u) ∨ s.waits .input ∨ ∃ svc ptr, s.walks svc ptr)) ∧
    (∃ used, s.keyboard = used ++ t.keyboard) ∧ t.params = s.params

/-! ### Waiting and cancellation -/

/-- R42: in WAIT_INPUT with no cancel, the first character the host has is taken: it is removed, goes to R0
and ends the wait. A query the host answers with no character leaves the block waiting: only that
answer is used up, and with no answer at all nothing changes. That a query uses up an `idle` answer is
the model's choice, log entry 7, and so is a step of a blocked block that answers the same state, log
entry 8. -/
def Obligations.WaitInputBlocks : Prop :=
  ∀ (s : State) (svc : WaitService), s.waits svc → s.cancelPending = false →
    (∀ c rest, s.keyboard = .key c :: rest → ∃ t, step s = .next t ∧ t.keyboard = rest ∧
      t.reg .r0 = c.setWidth 16 ∧ t.phase = .fetch) ∧
    (s.keyboard = [] → step s = .next s) ∧
    (∀ rest, s.keyboard = .idle :: rest → step s = .next { s with keyboard := rest })

/-- R45, R220, R214: asserting a cancel on a running block outside RESET makes it pending, with the host's
draw of R221 (the model's own field: log entry 10; a cancel already pending keeps its draw), and changes
nothing else. It stays pending: no step changes it or its draw, the one that takes it among them (log
entry 12). It is taken on entry to FETCH, between two words of STRING_OUT, and in WAIT_INPUT where no byte
is available: the run state becomes CANCELLED and nothing else changes, the phase neither (log entry 12,
the model's choice). Before the first word of a walk it is not taken: the step does what it does with no
cancel pending, and the cancel stays (R195, R252; the model's reading of 'before the next word', log entry
21). -/
def Obligations.CancelIsTaken : Prop :=
  (∀ (s : State) (first : Bool), s.run = .running → s.phase ≠ .reset →
    s.assertCancel first = { s with
      cancelPending := true, cancelFirst := if s.cancelPending then s.cancelFirst else first }) ∧
  (∀ s t : State, step s = .next t →
    t.cancelPending = s.cancelPending ∧ t.cancelFirst = s.cancelFirst) ∧
  (∀ (s t : State) (svc : StringService) (ptr : Word),
    s.run = .running → s.phase = .stringOut svc ptr false →
    step { s with cancelPending := false } = .next t →
    step { s with cancelPending := true } = .next { t with cancelPending := true } ∧ t.run = .running) ∧
  ∀ s : State, s.run = .running → s.cancelPending = true →
    (s.phase = .fetch ∨ (∃ svc ptr, s.phase = .stringOut svc ptr true) ∨
      (∃ svc, s.phase = .waitInput svc ∧ (s.keyboard = [] ∨ ∃ rest, s.keyboard = .idle :: rest))) →
    step s = .next { s with run := .cancelled }

/-- R221: in WAIT_INPUT with a byte and a cancel both available, either may be taken first, and both orders
happen. Which one does is the draw `cancelFirst`, a field of the model's own and its choice: log entry 10. A byte taken first leaves the cancel pending, and the next step, on
entry to FETCH, takes it. That a block which took the cancel keeps its phase, and the cancel pending, is
the model's choice too: log entry 12. -/
def Obligations.CancelRaceAdmitsBothOrders : Prop :=
  ∀ (s : State) (svc : WaitService) (c : Byte) (rest : List KeyEvent), s.waits svc →
    s.cancelPending = true → s.keyboard = .key c :: rest →
    step { s with cancelFirst := true } = .next { s with cancelFirst := true, run := .cancelled } ∧
    ∃ t, step { s with cancelFirst := false } = .next t ∧ t.reg .r0 = c.setWidth 16 ∧
      t.keyboard = rest ∧ t.run = .running ∧ t.phase = .fetch ∧
      step t = .next { t with run := .cancelled }

/-! ### Reset and boot -/

/-- R240 to R242, R245: while reset is held no step does anything; releasing it sets PC to ENTRY_PC, COND to
Z, the registers to RESET_GPR whatever they are, the run state to RUNNING and the phase to FETCH, drops
a pending cancel, and leaves memory, the host's input and the console alone. The model's reset state has
the values the spec gives for the default ENTRY_PC, 0x3000. That a cancel asserted while reset is held
is dropped is the model's reading of R240, log entry 11 (DEDUCED); that a step of a block in RESET answers
the same state is its choice, log entry 8; and so is that the release leaves a word alone which no
`boot_write` wrote since power-up, where R244 leaves it unspecified, log entry 20. -/
def Obligations.ResetReleaseValues : Prop :=
  ∀ (s : State) (entryPC : Word) (gpr : Regs),
    step s.assertReset = .next s.assertReset ∧ (s.assertReset).cancelPending = false ∧
    (∀ first, (s.assertReset).assertCancel first = s.assertReset) ∧
    (s.assertReset).releaseReset entryPC gpr = { s with
      regs := gpr, pc := entryPC, cond := .z, run := .running, phase := .fetch, cancelPending := false } ∧
    State.reset.pc = 0x3000 ∧ State.reset.cond = .z ∧ State.reset.run = .running ∧
    State.reset.phase = .fetch ∧ State.reset.cancelPending = false ∧ State.reset.fatalRecord = none

/-- R47: `boot_write` stores one word while the FSM is in RESET, polling nothing, and is ignored in every
other phase. -/
def Obligations.BootWriteOnlyInReset : Prop :=
  ∀ (s : State) (a v : Word), s.mem.wf = true →
    (s.phase = .reset → s.bootWrite a v = { s with mem := (s.bootWrite a v).mem } ∧
      ∀ x, (s.bootWrite a v).peek x = if x = a then v else s.peek x) ∧
    (s.phase ≠ .reset → s.bootWrite a v = s)

/-- R246, R247: loading an image with origin `o` and words `ws`: word k goes to address o + k as long as that
is at most 0xFFFF, every other word of memory keeps its value and nothing else changes, so that a further
image overwrites in its turn; a last odd byte changes nothing, and an
image shorter than two bytes loads nothing. -/
def Obligations.ImageLoadsAtOrigin : Prop :=
  ∀ (s : State) (o : Word) (ws : List Word), s.phase = .reset → s.mem.wf = true →
    let image := [o.extractLsb' 8 8, o.extractLsb' 0 8] ++
      ws.flatMap (fun w => [w.extractLsb' 8 8, w.extractLsb' 0 8])
    (∀ a : Word, (loadImage image s).peek a =
      if o.toNat ≤ a.toNat then ws.getD (a.toNat - o.toNat) (s.peek a) else s.peek a) ∧
    loadImage image s = { s with mem := (loadImage image s).mem } ∧
    (loadImage image s).mem.wf = true ∧
    (∀ b, loadImage (image ++ [b]) s = loadImage image s) ∧
    loadImage [] s = s ∧ ∀ b, loadImage [b] s = s

/-! ### The invariant -/

/-- The invariant holds in the model's reset state. -/
def Obligations.InvariantAtReset : Prop := State.reset.Inv

/-- Every step keeps the invariant, from every state that has it: memory stays canonical, a running block
never rests inside an instruction, R7 holds the return address while a service waits or walks, and a
fatal record is true of its instruction. -/
def Obligations.StepKeepsInvariant : Prop :=
  ∀ s t : State, s.Inv → step s = .next t → t.Inv

/-- Every action of the host keeps the invariant. -/
def Obligations.HostKeepsInvariant : Prop :=
  ∀ (a : HostAction) (s : State), s.Inv → (a.act s).Inv
end

