-- ==== Sys2Proof/Laws/Decode.lean ====
section
/-! SUPPORT. The small lemmas of the decoder's tables: the opcode map and the register fields are
bijections, and a field is read from where it was placed. -/

namespace Sys2Proof

@[simp] theorem Op.ofCode_code (o : Op) : Op.ofCode o.code = o := by cases o <;> rfl

@[simp] theorem Op.code_ofCode (c : BitVec 4) : (Op.ofCode c).code = c := by
  revert c; decide

@[simp] theorem Reg.ofBits_toBits (r : Reg) : Reg.ofBits r.toBits = r := by cases r <;> rfl

@[simp] theorem Reg.toBits_ofBits (b : BitVec 3) : (Reg.ofBits b).toBits = b := by
  revert b; decide

/-- Bit `k` of a placed field. -/
theorem getLsbD_place {n : Nat} (lo : Nat) (v : BitVec n) (k : Nat) :
    (place lo v).getLsbD k = (decide (k < 16) && !decide (k < lo) && v.getLsbD (k - lo)) := by
  by_cases hk : k < 16 <;> by_cases hl : k < lo <;> simp [place, hk, hl]

/-- Bit `k` of a field read. -/
theorem getLsbD_field (w : Word) (lo n k : Nat) :
    (field w lo n).getLsbD k = (decide (k < n) && w.getLsbD (lo + k)) := by
  simp [field]

theorem field_or (a b : Word) (lo n : Nat) : field (a ||| b) lo n = field a lo n ||| field b lo n := by
  refine BitVec.eq_of_getLsbD_eq fun k hk => ?_
  simp only [getLsbD_field, BitVec.getLsbD_or, hk, decide_true, Bool.true_and]

/-- A field is read whole where it was placed. -/
theorem field_place {n lo : Nat} (v : BitVec n) (h : lo + n ≤ 16) : field (place lo v) lo n = v := by
  refine BitVec.eq_of_getLsbD_eq fun k hk => ?_
  rw [getLsbD_field, getLsbD_place, Nat.add_sub_cancel_left]
  have h1 : lo + k < 16 := by omega
  have h2 : ¬ lo + k < lo := by omega
  simp only [hk, h1, h2, decide_true, decide_false, Bool.not_false, Bool.true_and]

/-- A field placed at other bits is not seen. -/
theorem field_place_other {n m lo lo' : Nat} (v : BitVec m) (h : lo + n ≤ lo' ∨ lo' + m ≤ lo) :
    field (place lo' v) lo n = 0#n := by
  refine BitVec.eq_of_getLsbD_eq fun k hk => ?_
  rw [getLsbD_field, getLsbD_place, BitVec.getLsbD_zero]
  rcases h with h | h
  · have h1 : lo + k < lo' := by omega
    simp only [h1, decide_true, Bool.not_true, Bool.and_false, Bool.false_and]
  · rw [BitVec.getLsbD_of_ge v _ (by omega), Bool.and_false, Bool.and_false]

/-- A bit is a field of width one. -/
theorem bit_eq_field (w : Word) (k : Nat) : bit w k = (field w k 1).getLsbD 0 := by
  rw [getLsbD_field]; rfl

end Sys2Proof
end

