-- ==== Sys2Proof/Laws/Memory.lean ====
section
/-! SUPPORT. The laws of memory as a list in canonical form: a write changes one address, every write keeps
the form, and two memories in the form with the same contents are the same list. -/

namespace Sys2Proof.Machine

theorem Memory.read_of_lt {lo a : Nat} {m : Memory} (h : Memory.wfFrom lo m = true) (ha : a < lo) :
    m.read a = Defaults.unlistedWord := by
  induction m generalizing lo with
  | nil => rfl
  | cons c m ih =>
    obtain ⟨b, w⟩ := c
    simp only [Memory.wfFrom, Bool.and_eq_true, decide_eq_true_eq] at h
    have hne : a ≠ b := by omega
    simp only [Memory.read, hne, if_false]
    exact ih h.2 (by omega)

/-- What a write does, for reading. -/
theorem Memory.read_write {lo : Nat} {m : Memory} (h : Memory.wfFrom lo m = true) (a x : Nat) (v : Word) :
    (m.write a v).read x = if x = a then v else m.read x := by
  induction m generalizing lo with
  | nil =>
    by_cases hv : v = Defaults.unlistedWord
    · simp only [Memory.write, hv, if_true, Memory.read]; split <;> rfl
    · simp only [Memory.write, hv, if_false, Memory.read]
  | cons c m ih =>
    obtain ⟨b, w⟩ := c
    simp only [Memory.wfFrom, Bool.and_eq_true, decide_eq_true_eq] at h
    have hout : ∀ y, y ≤ b → Memory.read m y = Defaults.unlistedWord := fun y hy =>
      Memory.read_of_lt h.2 (by omega)
    by_cases hab : a < b
    · by_cases hv : v = Defaults.unlistedWord
      · simp only [Memory.write, hab, hv, if_true]
        by_cases hx : x = a
        · have hxb : x ≠ b := by omega
          simp only [Memory.read, hx, if_true, hab.ne, if_false]
          exact hout a (by omega)
        · simp only [hx, if_false]
      · simp only [Memory.write, hab, hv, if_true, if_false, Memory.read]
    · by_cases hab' : a = b
      · subst hab'
        by_cases hv : v = Defaults.unlistedWord
        · simp only [Memory.write, Nat.lt_irrefl, hv, if_true, if_false, Memory.read]
          by_cases hx : x = a
          · simp only [hx, if_true]; exact hout a (Nat.le_refl _)
          · simp only [hx, if_false]
        · simp only [Memory.write, Nat.lt_irrefl, hv, if_true, if_false, Memory.read]
          by_cases hx : x = a <;> simp only [hx, if_true, if_false]
      · simp only [Memory.write, hab, hab', if_false, Memory.read]
        rw [ih h.2]
        by_cases hxb : x = b
        · have hxa : x ≠ a := by omega
          simp only [hxb, if_true]
          rw [if_neg (by omega)]
        · simp only [hxb, if_false]

theorem Memory.wfFrom_mono {lo hi : Nat} {m : Memory} (h : Memory.wfFrom hi m = true)
    (hle : lo ≤ hi) : Memory.wfFrom lo m = true := by
  cases m with
  | nil => rfl
  | cons c m =>
    simp only [Memory.wfFrom, Bool.and_eq_true, decide_eq_true_eq] at h ⊢
    exact ⟨⟨⟨by omega, h.1.1.2⟩, h.1.2⟩, h.2⟩

/-- A write keeps the canonical form. -/
theorem Memory.wfFrom_write {lo a : Nat} {m : Memory} {v : Word} (h : Memory.wfFrom lo m = true)
    (hlo : lo ≤ a) (ha : a < Config.memoryWords) : Memory.wfFrom lo (m.write a v) = true := by
  induction m generalizing lo with
  | nil =>
    by_cases hv : v = Defaults.unlistedWord
    · simp only [Memory.write, hv, if_true, Memory.wfFrom]
    · simp [Memory.write, hv, Memory.wfFrom, hlo, ha]
  | cons c m ih =>
    obtain ⟨b, w⟩ := c
    have h' := h
    simp only [Memory.wfFrom, Bool.and_eq_true, decide_eq_true_eq] at h'
    obtain ⟨⟨⟨h1, h2⟩, h3⟩, h4⟩ := h'
    by_cases hab : a < b
    · by_cases hv : v = Defaults.unlistedWord
      · simpa only [Memory.write, hab, hv, if_true] using h
      · simp only [Memory.write, hab, hv, if_true, if_false, Memory.wfFrom, Bool.and_eq_true,
          decide_eq_true_eq]
        exact ⟨⟨⟨hlo, ha⟩, hv⟩, ⟨⟨by omega, h2⟩, h3⟩, h4⟩
    · by_cases hab' : a = b
      · subst hab'
        by_cases hv : v = Defaults.unlistedWord
        · simp only [Memory.write, Nat.lt_irrefl, hv, if_true, if_false]
          exact Memory.wfFrom_mono h4 (by omega)
        · simp only [Memory.write, Nat.lt_irrefl, hv, if_true, if_false, Memory.wfFrom,
            Bool.and_eq_true, decide_eq_true_eq]
          exact ⟨⟨⟨hlo, ha⟩, hv⟩, h4⟩
      · simp only [Memory.write, hab, hab', if_false, Memory.wfFrom, Bool.and_eq_true,
          decide_eq_true_eq]
        exact ⟨⟨⟨h1, h2⟩, h3⟩, ih h4 (by omega)⟩

/-- Every write of the block keeps the canonical form: an address is a word, so it is in range. -/
theorem Memory.wf_write {m : Memory} (h : m.wf = true) (a v : Word) : (m.write a.toNat v).wf = true :=
  Memory.wfFrom_write h (Nat.zero_le _) a.isLt

/-- Equal contents are equal lists. -/
theorem Memory.eq_of_read_eq {lo : Nat} {m n : Memory} (hm : Memory.wfFrom lo m = true)
    (hn : Memory.wfFrom lo n = true) (h : ∀ a, m.read a = n.read a) : m = n := by
  induction m generalizing lo n with
  | nil =>
    cases n with
    | nil => rfl
    | cons c n =>
      have h0 := h c.1
      simp only [Memory.wfFrom, Bool.and_eq_true, decide_eq_true_eq] at hn
      simp only [Memory.read, if_true] at h0
      exact absurd h0.symm hn.1.2
  | cons c m ih =>
    obtain ⟨b, w⟩ := c
    have hm' := hm
    simp only [Memory.wfFrom, Bool.and_eq_true, decide_eq_true_eq] at hm'
    cases n with
    | nil =>
      have h0 := h b
      simp only [Memory.read, if_true] at h0
      exact absurd h0 hm'.1.2
    | cons d n =>
      obtain ⟨b', w'⟩ := d
      have hn' := hn
      simp only [Memory.wfFrom, Bool.and_eq_true, decide_eq_true_eq] at hn'
      have hb : b = b' := by
        by_contra hne
        rcases Nat.lt_or_gt_of_ne hne with hlt | hgt
        · have h0 := h b
          simp only [Memory.read, if_true, hne, if_false] at h0
          rw [Memory.read_of_lt hn'.2 (by omega)] at h0
          exact hm'.1.2 h0
        · have h0 := h b'
          have hne' : b' ≠ b := fun e => hne e.symm
          simp only [Memory.read, if_true, hne', if_false] at h0
          rw [Memory.read_of_lt hm'.2 (by omega)] at h0
          exact hn'.1.2 h0.symm
      subst hb
      have hw : w = w' := by
        have h0 := h b
        simpa only [Memory.read, if_true] using h0
      subst hw
      have hmn : m = n := by
        refine ih hm'.2 hn'.2 fun a => ?_
        by_cases hab : a = b
        · subst hab
          rw [Memory.read_of_lt hm'.2 (by omega), Memory.read_of_lt hn'.2 (by omega)]
        · have h0 := h a
          simpa only [Memory.read, hab, if_false] using h0
      rw [hmn]

end Sys2Proof.Machine
end

