-- ==== Sys2Proof/Laws/State.lean ====
section
/-! SUPPORT. One lemma per field and per update of State, each true by definition, so that no later proof
unfolds a record update. A lemma's name is the operation's and then the field's. -/

namespace Sys2Proof.Machine

variable (s : State)

/-! ### `setReg` -/

@[simp] theorem State.setReg_regs (r : Reg) (v : Word) : (State.setReg r v s).regs = s.regs.set r v := rfl
@[simp] theorem State.setReg_pc (r : Reg) (v : Word) : (State.setReg r v s).pc = s.pc := rfl
@[simp] theorem State.setReg_cond (r : Reg) (v : Word) : (State.setReg r v s).cond = s.cond := rfl
@[simp] theorem State.setReg_mem (r : Reg) (v : Word) : (State.setReg r v s).mem = s.mem := rfl
@[simp] theorem State.setReg_run (r : Reg) (v : Word) : (State.setReg r v s).run = s.run := rfl
@[simp] theorem State.setReg_phase (r : Reg) (v : Word) : (State.setReg r v s).phase = s.phase := rfl
@[simp] theorem State.setReg_cancelPending (r : Reg) (v : Word) : (State.setReg r v s).cancelPending = s.cancelPending := rfl
@[simp] theorem State.setReg_cancelFirst (r : Reg) (v : Word) : (State.setReg r v s).cancelFirst = s.cancelFirst := rfl
@[simp] theorem State.setReg_keyboard (r : Reg) (v : Word) : (State.setReg r v s).keyboard = s.keyboard := rfl
@[simp] theorem State.setReg_console (r : Reg) (v : Word) : (State.setReg r v s).console = s.console := rfl
@[simp] theorem State.setReg_params (r : Reg) (v : Word) : (State.setReg r v s).params = s.params := rfl
@[simp] theorem State.setReg_peek (r : Reg) (v : Word) (x : Word) : (State.setReg r v s).peek x = s.peek x := rfl
@[simp] theorem State.setReg_polled (r : Reg) (v : Word) : (State.setReg r v s).polled = s.polled := rfl

/-! ### `setPC` -/

@[simp] theorem State.setPC_regs (v : Word) : (State.setPC v s).regs = s.regs := rfl
@[simp] theorem State.setPC_pc (v : Word) : (State.setPC v s).pc = v := rfl
@[simp] theorem State.setPC_cond (v : Word) : (State.setPC v s).cond = s.cond := rfl
@[simp] theorem State.setPC_mem (v : Word) : (State.setPC v s).mem = s.mem := rfl
@[simp] theorem State.setPC_run (v : Word) : (State.setPC v s).run = s.run := rfl
@[simp] theorem State.setPC_phase (v : Word) : (State.setPC v s).phase = s.phase := rfl
@[simp] theorem State.setPC_cancelPending (v : Word) : (State.setPC v s).cancelPending = s.cancelPending := rfl
@[simp] theorem State.setPC_cancelFirst (v : Word) : (State.setPC v s).cancelFirst = s.cancelFirst := rfl
@[simp] theorem State.setPC_keyboard (v : Word) : (State.setPC v s).keyboard = s.keyboard := rfl
@[simp] theorem State.setPC_console (v : Word) : (State.setPC v s).console = s.console := rfl
@[simp] theorem State.setPC_params (v : Word) : (State.setPC v s).params = s.params := rfl
@[simp] theorem State.setPC_peek (v : Word) (x : Word) : (State.setPC v s).peek x = s.peek x := rfl
@[simp] theorem State.setPC_reg (v : Word) (x : Reg) : (State.setPC v s).reg x = s.reg x := rfl
@[simp] theorem State.setPC_polled (v : Word) : (State.setPC v s).polled = s.polled := rfl

/-! ### `setcc` -/

@[simp] theorem State.setcc_regs (v : Word) : (State.setcc v s).regs = s.regs := rfl
@[simp] theorem State.setcc_pc (v : Word) : (State.setcc v s).pc = s.pc := rfl
@[simp] theorem State.setcc_cond (v : Word) : (State.setcc v s).cond = Cond.ofWord v := rfl
@[simp] theorem State.setcc_mem (v : Word) : (State.setcc v s).mem = s.mem := rfl
@[simp] theorem State.setcc_run (v : Word) : (State.setcc v s).run = s.run := rfl
@[simp] theorem State.setcc_phase (v : Word) : (State.setcc v s).phase = s.phase := rfl
@[simp] theorem State.setcc_cancelPending (v : Word) : (State.setcc v s).cancelPending = s.cancelPending := rfl
@[simp] theorem State.setcc_cancelFirst (v : Word) : (State.setcc v s).cancelFirst = s.cancelFirst := rfl
@[simp] theorem State.setcc_keyboard (v : Word) : (State.setcc v s).keyboard = s.keyboard := rfl
@[simp] theorem State.setcc_console (v : Word) : (State.setcc v s).console = s.console := rfl
@[simp] theorem State.setcc_params (v : Word) : (State.setcc v s).params = s.params := rfl
@[simp] theorem State.setcc_peek (v : Word) (x : Word) : (State.setcc v s).peek x = s.peek x := rfl
@[simp] theorem State.setcc_reg (v : Word) (x : Reg) : (State.setcc v s).reg x = s.reg x := rfl
@[simp] theorem State.setcc_polled (v : Word) : (State.setcc v s).polled = s.polled := rfl

/-! ### `link` -/

@[simp] theorem State.link_regs : (s.link).regs = s.regs.set .r7 s.pc := rfl
@[simp] theorem State.link_pc : (s.link).pc = s.pc := rfl
@[simp] theorem State.link_cond : (s.link).cond = s.cond := rfl
@[simp] theorem State.link_mem : (s.link).mem = s.mem := rfl
@[simp] theorem State.link_run : (s.link).run = s.run := rfl
@[simp] theorem State.link_phase : (s.link).phase = s.phase := rfl
@[simp] theorem State.link_cancelPending : (s.link).cancelPending = s.cancelPending := rfl
@[simp] theorem State.link_cancelFirst : (s.link).cancelFirst = s.cancelFirst := rfl
@[simp] theorem State.link_keyboard : (s.link).keyboard = s.keyboard := rfl
@[simp] theorem State.link_console : (s.link).console = s.console := rfl
@[simp] theorem State.link_params : (s.link).params = s.params := rfl
@[simp] theorem State.link_peek (x : Word) : (s.link).peek x = s.peek x := rfl
@[simp] theorem State.link_polled : (s.link).polled = s.polled := rfl

/-! ### `memWrite` -/

@[simp] theorem State.memWrite_regs (a v : Word) : (State.memWrite a v s).regs = s.regs := rfl
@[simp] theorem State.memWrite_pc (a v : Word) : (State.memWrite a v s).pc = s.pc := rfl
@[simp] theorem State.memWrite_cond (a v : Word) : (State.memWrite a v s).cond = s.cond := rfl
@[simp] theorem State.memWrite_mem (a v : Word) : (State.memWrite a v s).mem = s.mem.write a.toNat v := rfl
@[simp] theorem State.memWrite_run (a v : Word) : (State.memWrite a v s).run = s.run := rfl
@[simp] theorem State.memWrite_phase (a v : Word) : (State.memWrite a v s).phase = s.phase := rfl
@[simp] theorem State.memWrite_cancelPending (a v : Word) : (State.memWrite a v s).cancelPending = s.cancelPending := rfl
@[simp] theorem State.memWrite_cancelFirst (a v : Word) : (State.memWrite a v s).cancelFirst = s.cancelFirst := rfl
@[simp] theorem State.memWrite_keyboard (a v : Word) : (State.memWrite a v s).keyboard = s.keyboard := rfl
@[simp] theorem State.memWrite_console (a v : Word) : (State.memWrite a v s).console = s.console := rfl
@[simp] theorem State.memWrite_params (a v : Word) : (State.memWrite a v s).params = s.params := rfl
@[simp] theorem State.memWrite_reg (a v : Word) (x : Reg) : (State.memWrite a v s).reg x = s.reg x := rfl
@[simp] theorem State.memWrite_polled (a v : Word) : (State.memWrite a v s).polled = s.polled := rfl

/-! ### `afterQuery` -/

@[simp] theorem State.afterQuery_regs : (s.afterQuery).regs = s.regs := rfl
@[simp] theorem State.afterQuery_pc : (s.afterQuery).pc = s.pc := rfl
@[simp] theorem State.afterQuery_cond : (s.afterQuery).cond = s.cond := rfl
@[simp] theorem State.afterQuery_mem : (s.afterQuery).mem = s.mem := rfl
@[simp] theorem State.afterQuery_run : (s.afterQuery).run = s.run := rfl
@[simp] theorem State.afterQuery_phase : (s.afterQuery).phase = s.phase := rfl
@[simp] theorem State.afterQuery_cancelPending : (s.afterQuery).cancelPending = s.cancelPending := rfl
@[simp] theorem State.afterQuery_cancelFirst : (s.afterQuery).cancelFirst = s.cancelFirst := rfl
@[simp] theorem State.afterQuery_keyboard : (s.afterQuery).keyboard = s.keyboard.tail := rfl
@[simp] theorem State.afterQuery_console : (s.afterQuery).console = s.console := rfl
@[simp] theorem State.afterQuery_params : (s.afterQuery).params = s.params := rfl
@[simp] theorem State.afterQuery_peek (x : Word) : (s.afterQuery).peek x = s.peek x := rfl
@[simp] theorem State.afterQuery_reg (x : Reg) : (s.afterQuery).reg x = s.reg x := rfl

/-! ### `conPut` -/

@[simp] theorem State.conPut_regs (b : Byte) : (State.conPut b s).regs = s.regs := rfl
@[simp] theorem State.conPut_pc (b : Byte) : (State.conPut b s).pc = s.pc := rfl
@[simp] theorem State.conPut_cond (b : Byte) : (State.conPut b s).cond = s.cond := rfl
@[simp] theorem State.conPut_mem (b : Byte) : (State.conPut b s).mem = s.mem := rfl
@[simp] theorem State.conPut_run (b : Byte) : (State.conPut b s).run = s.run := rfl
@[simp] theorem State.conPut_phase (b : Byte) : (State.conPut b s).phase = s.phase := rfl
@[simp] theorem State.conPut_cancelPending (b : Byte) : (State.conPut b s).cancelPending = s.cancelPending := rfl
@[simp] theorem State.conPut_cancelFirst (b : Byte) : (State.conPut b s).cancelFirst = s.cancelFirst := rfl
@[simp] theorem State.conPut_keyboard (b : Byte) : (State.conPut b s).keyboard = s.keyboard := rfl
@[simp] theorem State.conPut_console (b : Byte) : (State.conPut b s).console = s.console ++ [.put b] := rfl
@[simp] theorem State.conPut_params (b : Byte) : (State.conPut b s).params = s.params := rfl
@[simp] theorem State.conPut_peek (b : Byte) (x : Word) : (State.conPut b s).peek x = s.peek x := rfl
@[simp] theorem State.conPut_reg (b : Byte) (x : Reg) : (State.conPut b s).reg x = s.reg x := rfl
@[simp] theorem State.conPut_polled (b : Byte) : (State.conPut b s).polled = s.polled := rfl

/-! ### `conPuts` -/

@[simp] theorem State.conPuts_regs (bs : List Byte) : (State.conPuts bs s).regs = s.regs := rfl
@[simp] theorem State.conPuts_pc (bs : List Byte) : (State.conPuts bs s).pc = s.pc := rfl
@[simp] theorem State.conPuts_cond (bs : List Byte) : (State.conPuts bs s).cond = s.cond := rfl
@[simp] theorem State.conPuts_mem (bs : List Byte) : (State.conPuts bs s).mem = s.mem := rfl
@[simp] theorem State.conPuts_run (bs : List Byte) : (State.conPuts bs s).run = s.run := rfl
@[simp] theorem State.conPuts_phase (bs : List Byte) : (State.conPuts bs s).phase = s.phase := rfl
@[simp] theorem State.conPuts_cancelPending (bs : List Byte) : (State.conPuts bs s).cancelPending = s.cancelPending := rfl
@[simp] theorem State.conPuts_cancelFirst (bs : List Byte) : (State.conPuts bs s).cancelFirst = s.cancelFirst := rfl
@[simp] theorem State.conPuts_keyboard (bs : List Byte) : (State.conPuts bs s).keyboard = s.keyboard := rfl
@[simp] theorem State.conPuts_console (bs : List Byte) : (State.conPuts bs s).console = s.console ++ bs.map ConsoleEvent.put := rfl
@[simp] theorem State.conPuts_params (bs : List Byte) : (State.conPuts bs s).params = s.params := rfl
@[simp] theorem State.conPuts_peek (bs : List Byte) (x : Word) : (State.conPuts bs s).peek x = s.peek x := rfl
@[simp] theorem State.conPuts_reg (bs : List Byte) (x : Reg) : (State.conPuts bs s).reg x = s.reg x := rfl
@[simp] theorem State.conPuts_polled (bs : List Byte) : (State.conPuts bs s).polled = s.polled := rfl

/-! ### `conFlush` -/

@[simp] theorem State.conFlush_regs : (s.conFlush).regs = s.regs := rfl
@[simp] theorem State.conFlush_pc : (s.conFlush).pc = s.pc := rfl
@[simp] theorem State.conFlush_cond : (s.conFlush).cond = s.cond := rfl
@[simp] theorem State.conFlush_mem : (s.conFlush).mem = s.mem := rfl
@[simp] theorem State.conFlush_run : (s.conFlush).run = s.run := rfl
@[simp] theorem State.conFlush_phase : (s.conFlush).phase = s.phase := rfl
@[simp] theorem State.conFlush_cancelPending : (s.conFlush).cancelPending = s.cancelPending := rfl
@[simp] theorem State.conFlush_cancelFirst : (s.conFlush).cancelFirst = s.cancelFirst := rfl
@[simp] theorem State.conFlush_keyboard : (s.conFlush).keyboard = s.keyboard := rfl
@[simp] theorem State.conFlush_console : (s.conFlush).console = s.console ++ [.flush] := rfl
@[simp] theorem State.conFlush_params : (s.conFlush).params = s.params := rfl
@[simp] theorem State.conFlush_peek (x : Word) : (s.conFlush).peek x = s.peek x := rfl
@[simp] theorem State.conFlush_reg (x : Reg) : (s.conFlush).reg x = s.reg x := rfl
@[simp] theorem State.conFlush_polled : (s.conFlush).polled = s.polled := rfl

/-! ### `enter` -/

@[simp] theorem State.enter_regs (ph : Phase) : (State.enter ph s).regs = s.regs := rfl
@[simp] theorem State.enter_pc (ph : Phase) : (State.enter ph s).pc = s.pc := rfl
@[simp] theorem State.enter_cond (ph : Phase) : (State.enter ph s).cond = s.cond := rfl
@[simp] theorem State.enter_mem (ph : Phase) : (State.enter ph s).mem = s.mem := rfl
@[simp] theorem State.enter_run (ph : Phase) : (State.enter ph s).run = s.run := rfl
@[simp] theorem State.enter_phase (ph : Phase) : (State.enter ph s).phase = ph := rfl
@[simp] theorem State.enter_cancelPending (ph : Phase) : (State.enter ph s).cancelPending = s.cancelPending := rfl
@[simp] theorem State.enter_cancelFirst (ph : Phase) : (State.enter ph s).cancelFirst = s.cancelFirst := rfl
@[simp] theorem State.enter_keyboard (ph : Phase) : (State.enter ph s).keyboard = s.keyboard := rfl
@[simp] theorem State.enter_console (ph : Phase) : (State.enter ph s).console = s.console := rfl
@[simp] theorem State.enter_params (ph : Phase) : (State.enter ph s).params = s.params := rfl
@[simp] theorem State.enter_peek (ph : Phase) (x : Word) : (State.enter ph s).peek x = s.peek x := rfl
@[simp] theorem State.enter_reg (ph : Phase) (x : Reg) : (State.enter ph s).reg x = s.reg x := rfl
@[simp] theorem State.enter_polled (ph : Phase) : (State.enter ph s).polled = s.polled := rfl

/-! ### `finish` -/

@[simp] theorem State.finish_regs : (s.finish).regs = s.regs := rfl
@[simp] theorem State.finish_pc : (s.finish).pc = s.pc := rfl
@[simp] theorem State.finish_cond : (s.finish).cond = s.cond := rfl
@[simp] theorem State.finish_mem : (s.finish).mem = s.mem := rfl
@[simp] theorem State.finish_run : (s.finish).run = s.run := rfl
@[simp] theorem State.finish_phase : (s.finish).phase = .fetch := rfl
@[simp] theorem State.finish_cancelPending : (s.finish).cancelPending = s.cancelPending := rfl
@[simp] theorem State.finish_cancelFirst : (s.finish).cancelFirst = s.cancelFirst := rfl
@[simp] theorem State.finish_keyboard : (s.finish).keyboard = s.keyboard := rfl
@[simp] theorem State.finish_console : (s.finish).console = s.console := rfl
@[simp] theorem State.finish_params : (s.finish).params = s.params := rfl
@[simp] theorem State.finish_peek (x : Word) : (s.finish).peek x = s.peek x := rfl
@[simp] theorem State.finish_reg (x : Reg) : (s.finish).reg x = s.reg x := rfl
@[simp] theorem State.finish_polled : (s.finish).polled = s.polled := rfl

/-! ### `halt` -/

@[simp] theorem State.halt_regs : (s.halt).regs = s.regs := rfl
@[simp] theorem State.halt_pc : (s.halt).pc = s.pc := rfl
@[simp] theorem State.halt_cond : (s.halt).cond = s.cond := rfl
@[simp] theorem State.halt_mem : (s.halt).mem = s.mem := rfl
@[simp] theorem State.halt_run : (s.halt).run = .halted := rfl
@[simp] theorem State.halt_phase : (s.halt).phase = s.phase := rfl
@[simp] theorem State.halt_cancelPending : (s.halt).cancelPending = s.cancelPending := rfl
@[simp] theorem State.halt_cancelFirst : (s.halt).cancelFirst = s.cancelFirst := rfl
@[simp] theorem State.halt_keyboard : (s.halt).keyboard = s.keyboard := rfl
@[simp] theorem State.halt_console : (s.halt).console = s.console := rfl
@[simp] theorem State.halt_params : (s.halt).params = s.params := rfl
@[simp] theorem State.halt_peek (x : Word) : (s.halt).peek x = s.peek x := rfl
@[simp] theorem State.halt_reg (x : Reg) : (s.halt).reg x = s.reg x := rfl
@[simp] theorem State.halt_polled : (s.halt).polled = s.polled := rfl

/-! ### `takeCancel` -/

@[simp] theorem State.takeCancel_regs : (s.takeCancel).regs = s.regs := rfl
@[simp] theorem State.takeCancel_pc : (s.takeCancel).pc = s.pc := rfl
@[simp] theorem State.takeCancel_cond : (s.takeCancel).cond = s.cond := rfl
@[simp] theorem State.takeCancel_mem : (s.takeCancel).mem = s.mem := rfl
@[simp] theorem State.takeCancel_run : (s.takeCancel).run = .cancelled := rfl
@[simp] theorem State.takeCancel_phase : (s.takeCancel).phase = s.phase := rfl
@[simp] theorem State.takeCancel_cancelPending : (s.takeCancel).cancelPending = s.cancelPending := rfl
@[simp] theorem State.takeCancel_cancelFirst : (s.takeCancel).cancelFirst = s.cancelFirst := rfl
@[simp] theorem State.takeCancel_keyboard : (s.takeCancel).keyboard = s.keyboard := rfl
@[simp] theorem State.takeCancel_console : (s.takeCancel).console = s.console := rfl
@[simp] theorem State.takeCancel_params : (s.takeCancel).params = s.params := rfl
@[simp] theorem State.takeCancel_peek (x : Word) : (s.takeCancel).peek x = s.peek x := rfl
@[simp] theorem State.takeCancel_reg (x : Reg) : (s.takeCancel).reg x = s.reg x := rfl
@[simp] theorem State.takeCancel_polled : (s.takeCancel).polled = s.polled := rfl

/-! ### `raiseFatal` -/

@[simp] theorem State.raiseFatal_regs (reason : FatalReason) (instr : Word) : (State.raiseFatal reason instr s).regs = s.regs := rfl
@[simp] theorem State.raiseFatal_pc (reason : FatalReason) (instr : Word) : (State.raiseFatal reason instr s).pc = s.pc := rfl
@[simp] theorem State.raiseFatal_cond (reason : FatalReason) (instr : Word) : (State.raiseFatal reason instr s).cond = s.cond := rfl
@[simp] theorem State.raiseFatal_mem (reason : FatalReason) (instr : Word) : (State.raiseFatal reason instr s).mem = s.mem := rfl
@[simp] theorem State.raiseFatal_run (reason : FatalReason) (instr : Word) : (State.raiseFatal reason instr s).run = .fatal ⟨reason, s.pc - 1, instr⟩ := rfl
@[simp] theorem State.raiseFatal_phase (reason : FatalReason) (instr : Word) : (State.raiseFatal reason instr s).phase = s.phase := rfl
@[simp] theorem State.raiseFatal_cancelPending (reason : FatalReason) (instr : Word) : (State.raiseFatal reason instr s).cancelPending = s.cancelPending := rfl
@[simp] theorem State.raiseFatal_cancelFirst (reason : FatalReason) (instr : Word) : (State.raiseFatal reason instr s).cancelFirst = s.cancelFirst := rfl
@[simp] theorem State.raiseFatal_keyboard (reason : FatalReason) (instr : Word) : (State.raiseFatal reason instr s).keyboard = s.keyboard := rfl
@[simp] theorem State.raiseFatal_console (reason : FatalReason) (instr : Word) : (State.raiseFatal reason instr s).console = s.console := rfl
@[simp] theorem State.raiseFatal_params (reason : FatalReason) (instr : Word) : (State.raiseFatal reason instr s).params = s.params := rfl
@[simp] theorem State.raiseFatal_peek (reason : FatalReason) (instr : Word) (x : Word) : (State.raiseFatal reason instr s).peek x = s.peek x := rfl
@[simp] theorem State.raiseFatal_reg (reason : FatalReason) (instr : Word) (x : Reg) : (State.raiseFatal reason instr s).reg x = s.reg x := rfl
@[simp] theorem State.raiseFatal_polled (reason : FatalReason) (instr : Word) : (State.raiseFatal reason instr s).polled = s.polled := rfl

end Sys2Proof.Machine
end

