-- ==== Sys2Proof/Laws/Ops.lean ====
section
/-! SUPPORT. One lemma per shared operation that says everything it can do: the register file, the address
decoder with its keyboard poll, and the fetch. -/

namespace Sys2Proof.Machine

variable (s : State)

/-! ### The register file -/

/-- A register write changes that register and no other. -/
theorem Regs.get_set (g : Regs) (r x : Reg) (v : Word) :
    (g.set r v).get x = if x = r then v else g.get x := by
  cases r <;> cases x <;> rfl

@[simp] theorem Regs.get_set_self (g : Regs) (r : Reg) (v : Word) : (g.set r v).get r = v := by
  cases r <;> rfl

theorem State.setReg_reg (r x : Reg) (v : Word) :
    (State.setReg r v s).reg x = if x = r then v else s.reg x := Regs.get_set s.regs r x v

theorem State.link_reg (x : Reg) : s.link.reg x = if x = .r7 then s.pc else s.reg x :=
  Regs.get_set s.regs .r7 x s.pc

/-- Writing a destination register and then the flags, whole (R29). -/
theorem State.setRegCC_eq (dr : Reg) (v : Word) :
    State.setRegCC dr v s = { s with regs := s.regs.set dr v, cond := Cond.ofWord v } := by
  simp only [State.setRegCC, State.setReg, State.setcc, State.reg, Regs.get_set_self]

/-! ### The address decoder -/

/-- A poll changes two words of memory at most and uses up one answer of the host. -/
theorem State.kbsrPoll_eq :
    s.kbsrPoll = { s with
      keyboard := s.keyboard.tail
      mem := match s.polled with
        | some c => (s.mem.write Config.kbsrAddr.toNat 0x8000).write Config.kbdrAddr.toNat (zext c)
        | none => s.mem.write Config.kbsrAddr.toNat 0x0000 } := by
  unfold State.kbsrPoll
  split <;> rename_i h <;> simp only [State.memWrite, State.afterQuery, h]

/-- A read leaves everything but memory and the host's input as it was. -/
theorem State.afterRead_frame (a : Word) :
    ∃ m k, s.afterRead a = { s with mem := m, keyboard := k } := by
  unfold State.afterRead
  split
  · exact ⟨_, _, s.kbsrPoll_eq⟩
  · exact ⟨s.mem, s.keyboard, rfl⟩

/-- A read of an address other than 0xFE00 has no effect (R53). -/
theorem State.afterRead_of_ne {a : Word} (h : a ≠ Config.kbsrAddr) : s.afterRead a = s :=
  if_neg h

@[simp] theorem State.afterRead_regs (a : Word) : (s.afterRead a).regs = s.regs := by
  obtain ⟨m, k, h⟩ := s.afterRead_frame a; rw [h]
@[simp] theorem State.afterRead_reg (a : Word) (r : Reg) : (s.afterRead a).reg r = s.reg r := by
  obtain ⟨m, k, h⟩ := s.afterRead_frame a; rw [h]; rfl
@[simp] theorem State.afterRead_pc (a : Word) : (s.afterRead a).pc = s.pc := by
  obtain ⟨m, k, h⟩ := s.afterRead_frame a; rw [h]
@[simp] theorem State.afterRead_cond (a : Word) : (s.afterRead a).cond = s.cond := by
  obtain ⟨m, k, h⟩ := s.afterRead_frame a; rw [h]
@[simp] theorem State.afterRead_run (a : Word) : (s.afterRead a).run = s.run := by
  obtain ⟨m, k, h⟩ := s.afterRead_frame a; rw [h]
@[simp] theorem State.afterRead_phase (a : Word) : (s.afterRead a).phase = s.phase := by
  obtain ⟨m, k, h⟩ := s.afterRead_frame a; rw [h]
@[simp] theorem State.afterRead_cancelPending (a : Word) :
    (s.afterRead a).cancelPending = s.cancelPending := by
  obtain ⟨m, k, h⟩ := s.afterRead_frame a; rw [h]
@[simp] theorem State.afterRead_cancelFirst (a : Word) :
    (s.afterRead a).cancelFirst = s.cancelFirst := by
  obtain ⟨m, k, h⟩ := s.afterRead_frame a; rw [h]
@[simp] theorem State.afterRead_console (a : Word) : (s.afterRead a).console = s.console := by
  obtain ⟨m, k, h⟩ := s.afterRead_frame a; rw [h]
@[simp] theorem State.afterRead_params (a : Word) : (s.afterRead a).params = s.params := by
  obtain ⟨m, k, h⟩ := s.afterRead_frame a; rw [h]

/-- A store changes the word at its address and no other (R56). -/
theorem State.memWrite_peek {s : State} (h : s.mem.wf = true) (a v x : Word) :
    (State.memWrite a v s).peek x = if x = a then v else s.peek x := by
  show (s.mem.write a.toNat v).read x.toNat = _
  rw [Memory.read_write h]
  by_cases hx : x = a
  · simp only [hx, if_true]
  · rw [if_neg hx, if_neg fun e => hx (BitVec.eq_of_toNat_eq e)]; rfl

/-- Every memory operation of the block keeps the canonical form. -/
theorem State.memWrite_wf {s : State} (h : s.mem.wf = true) (a v : Word) :
    (State.memWrite a v s).mem.wf = true := Memory.wf_write h a v

theorem State.kbsrPoll_wf {s : State} (h : s.mem.wf = true) : s.kbsrPoll.mem.wf = true := by
  unfold State.kbsrPoll
  split
  · exact State.memWrite_wf (State.memWrite_wf h _ _) _ _
  · exact State.memWrite_wf h _ _

theorem State.afterRead_wf {s : State} (h : s.mem.wf = true) (a : Word) :
    (s.afterRead a).mem.wf = true := by
  unfold State.afterRead
  split
  · exact State.kbsrPoll_wf h
  · exact h

/-- Reading memory after a `MemRead`: only the words 0xFE00 and 0xFE02 can differ, and only after a
read of 0xFE00 (R54). -/
theorem State.afterRead_peek {s : State} (h : s.mem.wf = true) (a x : Word) :
    (s.afterRead a).peek x =
      if a = Config.kbsrAddr ∧ x = Config.kbsrAddr then
        (match s.polled with | some _ => 0x8000 | none => 0x0000)
      else if a = Config.kbsrAddr ∧ x = Config.kbdrAddr then
        (match s.polled with | some c => zext c | none => s.peek x)
      else s.peek x := by
  unfold State.afterRead
  by_cases ha : a = Config.kbsrAddr
  · simp only [ha, if_true, true_and]
    have hne : Config.kbsrAddr ≠ Config.kbdrAddr := by decide
    unfold State.kbsrPoll
    have hq : s.afterQuery.mem.wf = true := h
    split <;> rename_i hp
    · rw [State.memWrite_peek (State.memWrite_wf hq _ _), State.memWrite_peek hq]
      by_cases hx : x = Config.kbsrAddr
      · simp only [hx, hne, if_true, if_false, hp]
      · simp only [hx, if_false, hp, State.afterQuery_peek]
    · rw [State.memWrite_peek hq]
      by_cases hx : x = Config.kbsrAddr
      · simp only [hx, if_true, hp]
      · simp only [hx, if_false, hp, State.afterQuery_peek, ite_self]
  · simp only [ha, if_false, false_and]

/-- A read uses up the host's answers from the front only. -/
theorem State.afterRead_keyboard (a : Word) : ∃ used, s.keyboard = used ++ (s.afterRead a).keyboard := by
  unfold State.afterRead
  split
  · rw [State.kbsrPoll_eq]
    cases s.keyboard with
    | nil => exact ⟨[], rfl⟩
    | cons k ks => exact ⟨[k], rfl⟩
  · exact ⟨[], rfl⟩

/-- Reads none of which is at 0xFE00 have no effect (R53). -/
theorem State.afterReads_of_not_mem {as : List Word} (h : (0xFE00 : Word) ∉ as) :
    as.foldl State.afterRead s = s := by
  induction as with
  | nil => rfl
  | cons a as ih =>
    simp only [List.mem_cons, not_or] at h
    rw [List.foldl_cons, s.afterRead_of_ne (Ne.symm h.1)]
    exact ih h.2

/-- Several reads, one after the other: memory stays canonical and only the words 0xFE00 and 0xFE02 of it
can change. -/
theorem State.afterReads_frame (as : List Word) :
    ∃ m k used, as.foldl State.afterRead s = { s with mem := m, keyboard := k } ∧
      s.keyboard = used ++ k ∧
      (s.mem.wf = true → m.wf = true ∧
        ∀ a : Word, a ≠ 0xFE00 → a ≠ 0xFE02 → m.read a.toNat = s.peek a) := by
  induction as generalizing s with
  | nil => exact ⟨s.mem, s.keyboard, [], rfl, rfl, fun h => ⟨h, fun _ _ _ => rfl⟩⟩
  | cons a as ih =>
    obtain ⟨m, k, used, h1, h2, h3⟩ := ih (s.afterRead a)
    obtain ⟨m', k', e⟩ := s.afterRead_frame a
    obtain ⟨us, hus⟩ := s.afterRead_keyboard a
    refine ⟨m, k, us ++ used, ?_, by rw [hus, h2, List.append_assoc], fun hw => ?_⟩
    · rw [List.foldl_cons, h1, e]
    · obtain ⟨w1, w2⟩ := h3 (State.afterRead_wf hw a)
      refine ⟨w1, fun x h0 h2 => ?_⟩
      rw [w2 x h0 h2, State.afterRead_peek hw, if_neg fun h => h0 h.2, if_neg fun h => h2 h.2]

/-! ### The fetch and the services -/

/-- The fetch, whole: the read's effect, PC plus one, and EXECUTE with the word read (R82). -/
theorem State.fetch_eq :
    s.fetch = { s.afterRead s.pc with
      pc := s.pc + 1, phase := .execute ((s.afterRead s.pc).peek s.pc) } := rfl

@[simp] theorem State.fetch_regs : s.fetch.regs = s.regs := by rw [s.fetch_eq]; exact s.afterRead_regs _
@[simp] theorem State.fetch_reg (r : Reg) : s.fetch.reg r = s.reg r := by
  rw [s.fetch_eq]; exact s.afterRead_reg _ r
@[simp] theorem State.fetch_pc : s.fetch.pc = s.pc + 1 := rfl
@[simp] theorem State.fetch_cond : s.fetch.cond = s.cond := by rw [s.fetch_eq]; exact s.afterRead_cond _
@[simp] theorem State.fetch_run : s.fetch.run = s.run := by rw [s.fetch_eq]; exact s.afterRead_run _
@[simp] theorem State.fetch_console : s.fetch.console = s.console := by
  rw [s.fetch_eq]; exact s.afterRead_console _

/-- The dispatcher writes the run state, the phase and the console at most (R197, R198). -/
theorem dispatch_frame (vect8 : Byte) (instr : Word) :
    ∃ r ph out, dispatch vect8 instr s =
      { s with run := r, phase := ph, console := s.console ++ out } := by
  have h0 : s.console = s.console ++ [] := (List.append_nil _).symm
  unfold dispatch
  split
  · exact ⟨s.run, _, [], by rw [← h0]; rfl⟩
  · exact ⟨s.run, _, _, by rw [← List.append_assoc]; rfl⟩
  · exact ⟨s.run, _, [], by rw [← h0]; rfl⟩
  · exact ⟨s.run, _, _, rfl⟩
  · exact ⟨s.run, _, [], by rw [← h0]; rfl⟩
  · exact ⟨_, s.phase, _, by rw [← List.append_assoc]; rfl⟩
  · exact ⟨_, s.phase, [], by rw [← h0]; rfl⟩

/-- The completion of GETC and IN, whole. -/
theorem completeInput_eq (svc : WaitService) (c : Byte) :
    completeInput svc c s = { s with
      regs := s.regs.set .r0 (zext c)
      cond := Cond.ofWord (zext c)
      phase := .fetch
      console := match svc with | .getc => s.console | .input => s.console ++ [.put c] } := by
  cases svc <;> simp only [completeInput, State.setRegCC_eq] <;> rfl

/-- One word of a walk, whole: the read's effect, the console's end, and either the end of the walk or its
next address. -/
theorem walkWord_frame (svc : StringService) (ptr : Word) :
    ∃ ph o, walkWord svc ptr ((s.afterRead ptr).peek ptr) (s.afterRead ptr) =
        { s.afterRead ptr with phase := ph, console := s.console ++ o } ∧
      (ph = .fetch ∨ ph = .stringOut svc (ptr + 1) true) := by
  have hc := s.afterRead_console ptr
  generalize s.afterRead ptr = u at hc ⊢
  rw [← hc]
  cases svc
  · simp only [walkWord, putsWord]; split
    · exact ⟨_, _, rfl, .inl rfl⟩
    · exact ⟨_, _, rfl, .inr rfl⟩
  · simp only [walkWord, putspWord]; split
    · exact ⟨_, _, rfl, .inl rfl⟩
    · split
      · exact ⟨_, _, by rw [State.finish, State.enter, State.conFlush, State.conPut, List.append_assoc], .inl rfl⟩
      · exact ⟨_, _, by rw [State.enter, State.conPut, State.conPut, List.append_assoc], .inr rfl⟩

end Sys2Proof.Machine
end

