-- ==== Sys2Proof/Laws/Step.lean ====
section
/-! SUPPORT. What a step can do, said once: the cases of the control FSM (spec/10_state.md R35). -/

namespace Sys2Proof.Machine

variable {s t : State}

/-- A step of a block that is ready to fetch is the fetch and the handler of what it fetched. -/
theorem step_of_ready (h : s.readyToFetch) :
    step s = exec (decode (State.memRead s.pc s).1) s.fetch := by
  obtain ⟨h1, h2, h3⟩ := h
  simp only [step, cycle, h1, stepRunning, h2, stepFetch, h3]
  rfl

/-- A step that runs a handler is that handler. -/
theorem step_of_executes {i : Instr} {u : State} (h : s.executes i u) : step s = exec i u := by
  rcases h with ⟨hr, rfl, rfl⟩ | ⟨hr, w, hp, rfl, rfl⟩
  · exact step_of_ready hr
  · simp only [step, cycle, hr, stepRunning, hp]; rfl

/-- The state a walk's step leaves after reading one word. -/
theorem step_of_walks {svc : StringService} {ptr : Word} (h : s.walks svc ptr) :
    step s = .next (walkWord svc ptr ((s.afterRead ptr).peek ptr) (s.afterRead ptr)) := by
  obtain ⟨h1, begun, h2, h3⟩ := h
  simp only [step, cycle, h1, stepRunning, h2, stepString, h3]
  rfl

theorem step_of_waits {svc : WaitService} (h : s.waits svc) : step s = stepWait svc s := by
  obtain ⟨h1, h2⟩ := h
  simp only [step, cycle, h1, stepRunning, h2]

/-- A step is one of six things: the block stays as it is, it takes a cancel, it runs an instruction, a
service takes its byte, a service's query finds none, or a walk handles one word. -/
theorem step_cases (h : step s = .next t) :
    (t = s ∧ (s.run.terminal = true ∨ s.phase = .reset)) ∨
    (t = s.takeCancel ∧ s.run = .running ∧ s.cancelPending = true) ∨
    (∃ i u, s.executes i u ∧ exec i u = .next t) ∨
    (∃ svc c, s.waits svc ∧ s.polled = some c ∧ t = completeInput svc c s.afterQuery) ∨
    (∃ svc, s.waits svc ∧ s.polled = none ∧ t = s.afterQuery) ∨
    (∃ svc ptr, s.walks svc ptr ∧
      t = walkWord svc ptr ((s.afterRead ptr).peek ptr) (s.afterRead ptr)) := by
  have same : s.run.terminal = true ∨ s.phase = .reset → (Host.Outcome.next s : Result) = .next t →
      t = s ∧ (s.run.terminal = true ∨ s.phase = .reset) := fun hr e => by cases e; exact ⟨rfl, hr⟩
  unfold step cycle at h
  cases hr : s.run with
  | running =>
    rw [hr] at h
    unfold stepRunning at h
    cases hp : s.phase with
    | reset =>
      rw [hp] at h; cases h; exact .inl ⟨rfl, .inr rfl⟩
    | fetch =>
      rw [hp] at h
      simp only [stepFetch] at h
      split at h <;> rename_i hc
      · cases h; exact .inr (.inl ⟨rfl, rfl, hc⟩)
      · exact .inr (.inr (.inl ⟨_, _, .inl ⟨⟨hr, hp, by simpa using hc⟩, rfl, rfl⟩, h⟩))
    | execute w =>
      rw [hp] at h
      exact .inr (.inr (.inl ⟨_, _, .inr ⟨hr, w, hp, rfl, rfl⟩, h⟩))
    | waitInput svc =>
      rw [hp] at h
      simp only [stepWait] at h
      split at h <;> rename_i hq <;> split at h <;> rename_i hc <;> cases h
      · simp only [Bool.and_eq_true] at hc
        exact .inr (.inl ⟨rfl, rfl, hc.1⟩)
      · exact .inr (.inr (.inr (.inl ⟨svc, _, ⟨hr, hp⟩, hq, rfl⟩)))
      · exact .inr (.inl ⟨rfl, rfl, hc⟩)
      · exact .inr (.inr (.inr (.inr (.inl ⟨svc, ⟨hr, hp⟩, hq, rfl⟩))))
    | stringOut svc ptr begun =>
      rw [hp] at h
      simp only [stepString] at h
      split at h <;> rename_i hc
      · simp only [Bool.and_eq_true] at hc
        cases h; exact .inr (.inl ⟨rfl, rfl, hc.2⟩)
      · refine .inr (.inr (.inr (.inr (.inr ⟨svc, ptr, ⟨hr, begun, hp, by simpa using hc⟩, ?_⟩))))
        cases h; rfl
  | halted => rw [hr] at h; cases h; exact .inl ⟨rfl, .inl rfl⟩
  | fatal r => rw [hr] at h; cases h; exact .inl ⟨rfl, .inl rfl⟩
  | cancelled => rw [hr] at h; cases h; exact .inl ⟨rfl, .inl rfl⟩

/-! ### Runs of several steps -/

/-- The first step of a run. -/
theorem run_of_step {k : Nat} (h : step s = .next t) :
    Host.Core.run Sys2Proof.core (k + 1) s = Host.Core.run Sys2Proof.core k t := by
  simp only [Host.Core.run]
  rw [show Host.Core.step Sys2Proof.core s = .next t from h]

/-- The last step of a run. -/
theorem run_step_last {u : State} {k : Nat} (h : Host.Core.run Sys2Proof.core k s = .next t)
    (hs : step t = .next u) : Host.Core.run Sys2Proof.core (k + 1) s = .next u := by
  induction k generalizing s with
  | zero => cases h; exact run_of_step hs
  | succ k ih =>
    cases h1 : step s with
    | next v => rw [run_of_step h1] at h ⊢; exact ih h
    | fault r => cases r
    | refused r =>
      simp only [Host.Core.run] at h
      rw [show Host.Core.step Sys2Proof.core s = .refused r from h1] at h
      cases h

end Sys2Proof.Machine
end

