-- ==== Sys2Proof/Laws/Exec.lean ====
section
/-! SUPPORT. What an instruction can do, said once for all of them, so that a statement about every
instruction need not unfold nineteen meanings. -/

namespace Sys2Proof.Machine

/-- What an instruction can do, said once. It reads at its `readAddrs`, in order, through the
decoder, and then changes at most: the register R22 names, COND where R30 allows it, PC as R24 says, the word of
its own store, the run state (TRAP and the illegal opcodes alone), the phase, and, for TRAP alone, the
end of the console stream. -/
theorem exec_shape {i : Instr} {s t : State} (h : exec i s = .next t) :
   ∃ (g : Regs) (c : Cond) (pc : Word) (m : Memory) (r : RunState) (ph : Phase) (o : List ConsoleEvent),
     let u := (readAddrs i s).foldl State.afterRead s
     t = { u with regs := g, cond := c, pc := pc, mem := m, run := r, phase := ph, console := s.console ++ o } ∧
     (g = s.regs ∨ ∃ r v, writtenReg i = some r ∧ g = s.regs.set r v) ∧ (c = s.cond ∨ setsCond i = true) ∧
     pc = (pcTarget i s).getD s.pc ∧ (m = u.mem ∨ ∃ a v, storeOf i s = some (a, v) ∧ m = u.mem.write a.toNat v) ∧
     ((r = s.run ∧ ∀ w, ph ≠ .execute w) ∨ (∃ u v, i = .trap u v) ∨ (∃ b, i = .illegal1000 b) ∨ ∃ b, i = .illegal1101 b) ∧
     (o = [] ∨ ∃ u v, i = .trap u v) := by
  have nil : ∀ l : List ConsoleEvent, l ++ [] = l := List.append_nil
  have nx : ∀ w, Phase.fetch ≠ .execute w := fun w h => by cases h
  cases i
  case br n z p off =>
    cases h
    refine ⟨s.regs, s.cond, (pcTarget (.br n z p off) s).getD s.pc, s.mem, s.run, .fetch, [], ?_, .inl rfl, .inl rfl, rfl, .inl rfl, .inl ⟨rfl, nx⟩, .inl rfl⟩
    simp only [nil, pcTarget, readAddrs, List.foldl_nil]; split <;> rfl
  case add dr a b c =>
    simp only [exec, execAdd, State.setRegCC_eq] at h; cases h
    exact ⟨_, _, _, s.mem, s.run, .fetch, [], by rw [nil]; rfl, .inr ⟨_, _, rfl, rfl⟩, .inr rfl, rfl, .inl rfl, .inl ⟨rfl, nx⟩, .inl rfl⟩
  case addImm dr a b =>
    simp only [exec, execAddImm, State.setRegCC_eq] at h; cases h
    exact ⟨_, _, _, s.mem, s.run, .fetch, [], by rw [nil]; rfl, .inr ⟨_, _, rfl, rfl⟩, .inr rfl, rfl, .inl rfl, .inl ⟨rfl, nx⟩, .inl rfl⟩
  case and dr a b c =>
    simp only [exec, execAnd, State.setRegCC_eq] at h; cases h
    exact ⟨_, _, _, s.mem, s.run, .fetch, [], by rw [nil]; rfl, .inr ⟨_, _, rfl, rfl⟩, .inr rfl, rfl, .inl rfl, .inl ⟨rfl, nx⟩, .inl rfl⟩
  case andImm dr a b =>
    simp only [exec, execAndImm, State.setRegCC_eq] at h; cases h
    exact ⟨_, _, _, s.mem, s.run, .fetch, [], by rw [nil]; rfl, .inr ⟨_, _, rfl, rfl⟩, .inr rfl, rfl, .inl rfl, .inl ⟨rfl, nx⟩, .inl rfl⟩
  case not dr a b =>
    simp only [exec, execNot, State.setRegCC_eq] at h; cases h
    exact ⟨_, _, _, s.mem, s.run, .fetch, [], by rw [nil]; rfl, .inr ⟨_, _, rfl, rfl⟩, .inr rfl, rfl, .inl rfl, .inl ⟨rfl, nx⟩, .inl rfl⟩
  case lea dr a =>
    simp only [exec, execLea, State.setRegCC_eq] at h; cases h
    exact ⟨_, _, _, s.mem, s.run, .fetch, [], by rw [nil]; rfl, .inr ⟨_, _, rfl, rfl⟩, .inr rfl, rfl, .inl rfl, .inl ⟨rfl, nx⟩, .inl rfl⟩
  case ld dr a =>
    simp only [exec, execLd, State.memRead, State.setRegCC_eq] at h; cases h
    exact ⟨_, _, _, _, s.run, .fetch, [], by simp [readAddrs, State.finish, State.enter]; exact ⟨rfl, rfl, rfl⟩, .inr ⟨_, _, rfl, rfl⟩, .inr rfl, rfl, .inl rfl, .inl ⟨rfl, nx⟩, .inl rfl⟩
  case ldr dr b a =>
    simp only [exec, execLdr, State.memRead, State.setRegCC_eq] at h; cases h
    exact ⟨_, _, _, _, s.run, .fetch, [], by simp [readAddrs, State.finish, State.enter]; exact ⟨rfl, rfl, rfl⟩, .inr ⟨_, _, rfl, rfl⟩, .inr rfl, rfl, .inl rfl, .inl ⟨rfl, nx⟩, .inl rfl⟩
  case ldi dr a =>
    simp only [exec, execLdi, State.memRead, State.setRegCC_eq] at h; cases h
    exact ⟨_, _, _, _, s.run, .fetch, [], by simp [readAddrs, State.finish, State.enter]; exact ⟨rfl, rfl, rfl, rfl, rfl⟩, .inr ⟨_, _, rfl, rfl⟩, .inr rfl, rfl, .inl rfl, .inl ⟨rfl, nx⟩, .inl rfl⟩
  case st sr a =>
    cases h
    exact ⟨s.regs, s.cond, s.pc, _, s.run, .fetch, [], by rw [nil]; rfl, .inl rfl, .inl rfl, rfl, .inr ⟨_, _, rfl, rfl⟩, .inl ⟨rfl, nx⟩, .inl rfl⟩
  case str sr b a =>
    cases h
    exact ⟨s.regs, s.cond, s.pc, _, s.run, .fetch, [], by rw [nil]; rfl, .inl rfl, .inl rfl, rfl, .inr ⟨_, _, rfl, rfl⟩, .inl ⟨rfl, nx⟩, .inl rfl⟩
  case sti sr a =>
    simp only [exec, execSti, State.memRead] at h; cases h
    exact ⟨s.regs, s.cond, s.pc, _, s.run, .fetch, [], by simp [readAddrs, State.finish, State.enter, State.memWrite]; rfl, .inl rfl, .inl rfl, rfl, .inr ⟨_, _, rfl, rfl⟩, .inl ⟨rfl, nx⟩, .inl rfl⟩
  case jmp a b c =>
    cases h
    exact ⟨s.regs, s.cond, _, s.mem, s.run, .fetch, [], by rw [nil]; rfl, .inl rfl, .inl rfl, rfl, .inl rfl, .inl ⟨rfl, nx⟩, .inl rfl⟩
  case jsr a =>
    cases h
    exact ⟨_, s.cond, _, s.mem, s.run, .fetch, [], by rw [nil]; rfl, .inr ⟨.r7, s.pc, rfl, rfl⟩, .inl rfl, rfl, .inl rfl, .inl ⟨rfl, nx⟩, .inl rfl⟩
  case jsrr a b c =>
    cases h
    exact ⟨_, s.cond, _, s.mem, s.run, .fetch, [], by rw [nil]; simp only [State.link_reg]; rfl, .inr ⟨.r7, s.pc, rfl, rfl⟩, .inl rfl, rfl, .inl rfl, .inl ⟨rfl, nx⟩, .inl rfl⟩
  case illegal1000 b =>
    cases h
    exact ⟨s.regs, s.cond, s.pc, s.mem, _, s.phase, [], by rw [nil]; rfl, .inl rfl, .inl rfl, rfl, .inl rfl, .inr (.inr (.inl ⟨_, rfl⟩)), .inl rfl⟩
  case illegal1101 b =>
    cases h
    exact ⟨s.regs, s.cond, s.pc, s.mem, _, s.phase, [], by rw [nil]; rfl, .inl rfl, .inl rfl, rfl, .inl rfl, .inr (.inr (.inr ⟨_, rfl⟩)), .inl rfl⟩
  case trap a v =>
    simp only [exec, execTrap] at h
    obtain ⟨r, ph, o, e⟩ := dispatch_frame s.link v (encode (.trap a v))
    rw [e] at h; cases h
    exact ⟨_, s.cond, s.pc, s.mem, _, _, o, rfl, .inr ⟨.r7, s.pc, rfl, rfl⟩, .inl rfl, rfl, .inl rfl, .inr (.inl ⟨_, _, rfl⟩), .inr ⟨_, _, rfl⟩⟩

/-- How an instruction can end in FATAL: an illegal opcode with nothing else changed, or a TRAP with no
service, after its link (R196, R210). -/
theorem exec_fatal {i : Instr} {s t : State} {r : FatalRecord} (hs : s.run = .running)
    (h : exec i s = .next t) (ht : t.run = .fatal r) :
    (t = { s with run := .fatal ⟨.illegalOpcode, s.pc - 1, encode i⟩ } ∧
      ((∃ b, i = .illegal1000 b) ∨ ∃ b, i = .illegal1101 b)) ∨
    (t = { s with regs := s.regs.set .r7 s.pc, run := .fatal ⟨.unknownTrap, s.pc - 1, encode i⟩ } ∧
      ∃ u x, i = .trap u x ∧ serviceOf x = none) := by
  have h0 := h
  obtain ⟨g, c, pc, m, rn, ph, o, e, -, -, -, -, hr, -⟩ := exec_shape h
  rcases hr with ⟨rfl, -⟩ | ⟨u, v, rfl⟩ | ⟨b, rfl⟩ | ⟨b, rfl⟩
  · rw [e] at ht; cases hs.symm.trans ht
  · simp only [exec, execTrap, dispatch] at h0
    split at h0 <;> cases h0
    · cases hs.symm.trans ht
    · cases hs.symm.trans ht
    · cases hs.symm.trans ht
    · cases hs.symm.trans ht
    · cases hs.symm.trans ht
    · cases ht
    · rename_i hn; exact .inr ⟨rfl, u, v, rfl, hn⟩
  · cases h0; exact .inl ⟨rfl, .inl ⟨_, rfl⟩⟩
  · cases h0; exact .inl ⟨rfl, .inr ⟨_, rfl⟩⟩

end Sys2Proof.Machine
end

