-- ==== Sys2Proof/Laws/PerInstr.lean ====
section
/-! SUPPORT. The family TableRow: the word the encoder writes for an instruction matches that
instruction's row of spec/opcode_table.json under the row's own mask. The masks and matches are
copied from the table, not read off the encoder. -/

namespace Sys2Proof.Laws.TableRow

/-- The row's "mask" in spec/opcode_table.json. -/
def mask : Instr → Word
  | .br _ _ _ _ => 0xF000
  | .add _ _ _ _ => 0xF020
  | .addImm _ _ _ => 0xF020
  | .ld _ _ => 0xF000
  | .st _ _ => 0xF000
  | .jsr _ => 0xF800
  | .jsrr _ _ _ => 0xF800
  | .and _ _ _ _ => 0xF020
  | .andImm _ _ _ => 0xF020
  | .ldr _ _ _ => 0xF000
  | .str _ _ _ => 0xF000
  | .illegal1000 _ => 0xF000
  | .not _ _ _ => 0xF000
  | .ldi _ _ => 0xF000
  | .sti _ _ => 0xF000
  | .jmp _ _ _ => 0xF000
  | .illegal1101 _ => 0xF000
  | .lea _ _ => 0xF000
  | .trap _ _ => 0xF000

/-- The row's "match" in spec/opcode_table.json. -/
def row : Instr → Word
  | .br _ _ _ _ => 0x0000
  | .add _ _ _ _ => 0x1000
  | .addImm _ _ _ => 0x1020
  | .ld _ _ => 0x2000
  | .st _ _ => 0x3000
  | .jsr _ => 0x4800
  | .jsrr _ _ _ => 0x4000
  | .and _ _ _ _ => 0x5000
  | .andImm _ _ _ => 0x5020
  | .ldr _ _ _ => 0x6000
  | .str _ _ _ => 0x7000
  | .illegal1000 _ => 0x8000
  | .not _ _ _ => 0x9000
  | .ldi _ _ => 0xA000
  | .sti _ _ => 0xB000
  | .jmp _ _ _ => 0xC000
  | .illegal1101 _ => 0xD000
  | .lea _ _ => 0xE000
  | .trap _ _ => 0xF000

/-- The encoded word matches the row. -/
def Statement (i : Instr) : Prop := encode i &&& mask i = row i

/-- A field placed at bits the mask does not cover leaves no trace under it. -/
theorem place_masked {n : Nat} (lo : Nat) (v : BitVec n) (m : Word)
    (h : place lo (BitVec.allOnes n) &&& m = 0) : place lo v &&& m = 0 := by
  have hv : place lo v = place lo v &&& place lo (BitVec.allOnes n) := by
    simp only [place, ← BitVec.shiftLeft_and_distrib, ← BitVec.setWidth_and, BitVec.and_allOnes]
  rw [hv, BitVec.and_assoc, h]; exact BitVec.and_zero

theorem or_masked (a b m : Word) : (a ||| b) &&& m = a &&& m ||| b &&& m := by
  ext k hk; simp [Bool.and_or_distrib_right]

theorem br (n z p : Bool) (off9 : BitVec 9) : Statement (.br n z p off9) := by
  simp (disch := decide) only [Statement, mask, row, encode, or_masked, place_masked]; decide
theorem add (dr sr1 : Reg) (unused : BitVec 2) (sr2 : Reg) : Statement (.add dr sr1 unused sr2) := by
  simp (disch := decide) only [Statement, mask, row, encode, or_masked, place_masked]; decide
theorem addImm (dr sr1 : Reg) (imm5 : BitVec 5) : Statement (.addImm dr sr1 imm5) := by
  simp (disch := decide) only [Statement, mask, row, encode, or_masked, place_masked]; decide
theorem ld (dr : Reg) (off9 : BitVec 9) : Statement (.ld dr off9) := by
  simp (disch := decide) only [Statement, mask, row, encode, or_masked, place_masked]; decide
theorem st (sr : Reg) (off9 : BitVec 9) : Statement (.st sr off9) := by
  simp (disch := decide) only [Statement, mask, row, encode, or_masked, place_masked]; decide
theorem jsr (off11 : BitVec 11) : Statement (.jsr off11) := by
  simp (disch := decide) only [Statement, mask, row, encode, or_masked, place_masked]; decide
theorem jsrr (unusedHi : BitVec 2) (baseR : Reg) (unusedLo : BitVec 6) : Statement (.jsrr unusedHi baseR unusedLo) := by
  simp (disch := decide) only [Statement, mask, row, encode, or_masked, place_masked]; decide
theorem and (dr sr1 : Reg) (unused : BitVec 2) (sr2 : Reg) : Statement (.and dr sr1 unused sr2) := by
  simp (disch := decide) only [Statement, mask, row, encode, or_masked, place_masked]; decide
theorem andImm (dr sr1 : Reg) (imm5 : BitVec 5) : Statement (.andImm dr sr1 imm5) := by
  simp (disch := decide) only [Statement, mask, row, encode, or_masked, place_masked]; decide
theorem ldr (dr baseR : Reg) (off6 : BitVec 6) : Statement (.ldr dr baseR off6) := by
  simp (disch := decide) only [Statement, mask, row, encode, or_masked, place_masked]; decide
theorem str (sr baseR : Reg) (off6 : BitVec 6) : Statement (.str sr baseR off6) := by
  simp (disch := decide) only [Statement, mask, row, encode, or_masked, place_masked]; decide
theorem illegal1000 (rest : BitVec 12) : Statement (.illegal1000 rest) := by
  simp (disch := decide) only [Statement, mask, row, encode, or_masked, place_masked]; decide
theorem not (dr sr : Reg) (unused : BitVec 6) : Statement (.not dr sr unused) := by
  simp (disch := decide) only [Statement, mask, row, encode, or_masked, place_masked]; decide
theorem ldi (dr : Reg) (off9 : BitVec 9) : Statement (.ldi dr off9) := by
  simp (disch := decide) only [Statement, mask, row, encode, or_masked, place_masked]; decide
theorem sti (sr : Reg) (off9 : BitVec 9) : Statement (.sti sr off9) := by
  simp (disch := decide) only [Statement, mask, row, encode, or_masked, place_masked]; decide
theorem jmp (unusedHi : BitVec 3) (baseR : Reg) (unusedLo : BitVec 6) : Statement (.jmp unusedHi baseR unusedLo) := by
  simp (disch := decide) only [Statement, mask, row, encode, or_masked, place_masked]; decide
theorem illegal1101 (rest : BitVec 12) : Statement (.illegal1101 rest) := by
  simp (disch := decide) only [Statement, mask, row, encode, or_masked, place_masked]; decide
theorem lea (dr : Reg) (off9 : BitVec 9) : Statement (.lea dr off9) := by
  simp (disch := decide) only [Statement, mask, row, encode, or_masked, place_masked]; decide
theorem trap (unused : BitVec 4) (vect8 : BitVec 8) : Statement (.trap unused vect8) := by
  simp (disch := decide) only [Statement, mask, row, encode, or_masked, place_masked]; decide

end Sys2Proof.Laws.TableRow
end

