-- ==== Sys2Proof/Tests/Slice0.lean ====
section
/-! SUPPORT. The model's own tests. Every expected value is copied from the spec: the worked examples of
the instruction rules and the vectors of spec/95_test_vectors.md, named in each comment; the words are
written out there from the layouts of R87. Each test is one step on a small state. The second half
shows, for every statement that has hypotheses, a state and operands that meet them. -/

namespace Sys2Proof.Tests

open Sys2Proof.Machine

/-! ### Small states -/

/-- A running block about to fetch `word` at `at`, with some registers and other memory words set. -/
def fetching (addr word : Word) (regs : List (Reg × Word)) (cells : List (Word × Word))
    (cond : Cond) : State :=
  let s := { State.reset with pc := addr, cond := cond }
  let s := regs.foldl (fun t p => State.setReg p.1 p.2 t) s
  cells.foldl (fun t p => State.memWrite p.1 p.2 t) (State.memWrite addr word s)

/-- `s` with this host input. -/
def withKeys (ks : List KeyEvent) (s : State) : State := { s with keyboard := ks }

/-- `s` in this phase. -/
def inPhase (ph : Phase) (s : State) : State := { s with phase := ph }

/-- What `f` reads after one step. -/
def after {α : Type} (s : State) (f : State → α) : Option α :=
  match step s with
  | .next t => some (f t)
  | .fault _ => none
  | .refused _ => none

/-- What most vectors list: a register, COND and PC. -/
def regCondPC (r : Reg) (s : State) : Word × Cond × Word := (s.reg r, s.cond, s.pc)

/-! ### Well-formedness: an ill-formed term for each of the two checks -/

theorem test_wellFormed_refuses_1000 : (Instr.illegal1000 0x000).wellFormed = false := by decide
theorem test_wellFormed_refuses_1101 : (Instr.illegal1101 0xFFF).wellFormed = false := by decide
theorem test_wellFormed_accepts_unknown_vector : (Instr.trap 0 0xFF).wellFormed = true := by decide

/-! ### Decoding: a word for every constructor, with its bits written out field by field -/

theorem test_decode_br : decode (0b0000_010_000000010#16) = .br false true false 2 := by decide
theorem test_decode_add : decode (0b0001_010_000_0_11_001#16) = .add .r2 .r0 0b11 .r1 := by decide
theorem test_decode_addImm : decode (0b0001_001_010_1_11111#16) = .addImm .r1 .r2 0b11111 := by decide
theorem test_decode_ld : decode (0b0010_001_000001000#16) = .ld .r1 8 := by decide
theorem test_decode_st : decode (0b0011_011_111111110#16) = .st .r3 0x1FE := by decide
theorem test_decode_jsr : decode (0b0100_1_10000000000#16) = .jsr 0x400 := by decide
theorem test_decode_jsrr : decode (0b0100_0_10_010_000001#16) = .jsrr 0b10 .r2 1 := by decide
theorem test_decode_and : decode (0b0101_010_000_0_00_001#16) = .and .r2 .r0 0 .r1 := by decide
theorem test_decode_andImm : decode (0b0101_110_000_1_10000#16) = .andImm .r6 .r0 0b10000 := by decide
theorem test_decode_ldr : decode (0b0110_010_001_111111#16) = .ldr .r2 .r1 0b111111 := by decide
theorem test_decode_str : decode (0b0111_011_001_100000#16) = .str .r3 .r1 0b100000 := by decide
theorem test_decode_illegal1000 : decode (0b1000_000000000001#16) = .illegal1000 1 := by decide
theorem test_decode_not : decode (0b1001_011_001_111110#16) = .not .r3 .r1 0b111110 := by decide
theorem test_decode_ldi : decode (0b1010_010_000000110#16) = .ldi .r2 6 := by decide
theorem test_decode_sti : decode (0b1011_101_100000000#16) = .sti .r5 0x100 := by decide
theorem test_decode_jmp : decode (0b1100_100_111_000001#16) = .jmp 0b100 .r7 1 := by decide
theorem test_decode_illegal1101 : decode (0b1101_100000000000#16) = .illegal1101 0x800 := by decide
theorem test_decode_lea : decode (0b1110_100_000000010#16) = .lea .r4 2 := by decide
theorem test_decode_trap : decode (0b1111_1010_00100101#16) = .trap 0b1010 0x25 := by decide

/-! The decoder as the host asks it, and the word it places. -/

theorem test_decodeTableWord : decodeTableWord 16 0x1401 = some (.add .r2 .r0 0 .r1) := by decide
theorem test_decodeTableWord_too_long : decodeTableWord 32 0x1401 = none := by decide
theorem test_withFetchWord_runs :
    after (State.reset.withFetchWord 16 0xE002) (regCondPC .r0) = some (0x3003, .p, 0x3001) := by decide

/-! ### One step: spec/95_test_vectors.md sections 1 and 2 -/

-- S1
theorem test_sext : [sext (0x10#5), sext (0x0F#5), sext (0x1F#5)] = [0xFFF0, 0x000F, 0xFFFF] ∧
    [sext (0x20#6), sext (0x1F#6)] = [0xFFE0, 0x001F] ∧
    [sext (0x100#9), sext (0x0FF#9), sext (0x1FF#9)] = [0xFF00, 0x00FF, 0xFFFF] ∧
    [sext (0x400#11), sext (0x3FF#11)] = [0xFC00, 0x03FF] := by decide
-- S2
theorem test_setcc : [0x0000, 0x0001, 0x7FFF, 0x8000, 0xFFFF].map Cond.ofWord = [.z, .p, .p, .n, .n] := by
  decide

-- Operate: "ADD unsigned wrap", "ADD signed overflow"
theorem test_add_wrap :
    after (fetching 0x3000 0x1401 [(.r0, 0xFFFF), (.r1, 1)] [] .n) (regCondPC .r2) =
      some (0x0000, .z, 0x3001) := by decide
theorem test_add_overflow_same_source :
    after (fetching 0x3000 0x1241 [(.r1, 0x4000)] [] .z) (regCondPC .r1) = some (0x8000, .n, 0x3001) := by
  decide
-- "ADD imm -16", "ADD imm to zero"
theorem test_addImm_minus_16 :
    after (fetching 0x3000 0x1070 [(.r1, 5)] [] .z) (regCondPC .r0) = some (0xFFF5, .n, 0x3001) := by decide
theorem test_addImm_to_zero :
    after (fetching 0x3000 0x127F [(.r1, 1)] [] .p) (regCondPC .r1) = some (0x0000, .z, 0x3001) := by decide
-- "AND disjoint", "AND negative"
theorem test_and_disjoint :
    after (fetching 0x3000 0x5401 [(.r0, 0xF0F0), (.r1, 0x0F0F)] [] .n) (regCondPC .r2) =
      some (0x0000, .z, 0x3001) := by decide
theorem test_and_negative :
    after (fetching 0x3000 0x5401 [(.r0, 0xF0F0), (.r1, 0xFF00)] [] .z) (regCondPC .r2) =
      some (0xF000, .n, 0x3001) := by decide
-- "AND #-16", "AND #15"
theorem test_andImm_minus_16 :
    after (fetching 0x3000 0x5270 [(.r1, 0x00FF)] [] .z) (regCondPC .r1) = some (0x00F0, .p, 0x3001) := by
  decide
theorem test_andImm_15 :
    after (fetching 0x3000 0x526F [(.r1, 0xABCD)] [] .z) (regCondPC .r1) = some (0x000D, .p, 0x3001) := by
  decide
-- "NOT into another register", "NOT 0xFFFF, unused bits zero"
theorem test_not_other_register :
    after (fetching 0x3000 0x967F [(.r1, 0x4000)] [] .z) (regCondPC .r3) = some (0xBFFF, .n, 0x3001) := by
  decide
theorem test_not_unused_zero :
    after (fetching 0x3000 0x9000 [(.r0, 0xFFFF)] [] .n) (regCondPC .r0) = some (0x0000, .z, 0x3001) := by
  decide

-- Control: S4 and "BR wrap down"
theorem test_br_zero : [0x0402, 0x0802, 0x0202].map (fun w =>
    after (fetching 0x3000 w [] [] .z) State.pc) = [some 0x3003, some 0x3001, some 0x3001] := by decide
theorem test_br_wrap_down : after (fetching 0x0000 0x0FFE [] [] .p) State.pc = some 0xFFFF := by decide
-- "JMP", "RET, unused bits set"
theorem test_jmp : after (fetching 0x3000 0xC080 [(.r2, 0x4000)] [] .n) (regCondPC .r7) =
    some (0, .n, 0x4000) := by decide
theorem test_ret_unused : after (fetching 0x3000 0xCFFF [(.r7, 0x1234)] [] .n) State.pc = some 0x1234 := by
  decide
-- "JSR max backward", "JSR wrap"
theorem test_jsr_backward : after (fetching 0x3000 0x4C00 [] [] .n) (regCondPC .r7) =
    some (0x3001, .n, 0x2C01) := by decide
theorem test_jsr_wrap : after (fetching 0xFFFF 0x4801 [] [] .n) (regCondPC .r7) =
    some (0x0000, .n, 0x0001) := by decide
-- S5, "JSRR R7 (D27)"
theorem test_jsrr : after (fetching 0x3000 0x4080 [(.r2, 0x5000)] [] .n) (regCondPC .r7) =
    some (0x3001, .n, 0x5000) := by decide
theorem test_jsrr_r7 : after (fetching 0x3000 0x41C0 [(.r7, 0x5000)] [] .z) (regCondPC .r7) =
    some (0x3001, .z, 0x3001) := by decide

-- Loads and stores: "LD wrap", "LD of KBSR, key pending"
theorem test_ld_wrap : after (fetching 0xFFF0 0x20FF [] [(0x00F0, 0x8001)] .z) (regCondPC .r0) =
    some (0x8001, .n, 0xFFF1) := by decide
theorem test_ld_kbsr : after (withKeys [.key 0x41] (fetching 0xFE01 0x21FE [] [] .z)) (fun t =>
    (t.reg .r0, t.cond, t.kbsr, t.kbdr, t.keyboard)) = some (0x8000, .n, 0x8000, 0x0041, []) := by decide
-- S6, "LDI whose pointer word is KBSR, key pending"
theorem test_ldi : after (fetching 0x3002 0xA406 [] [(0x3009, 0x4000), (0x4000, 0xC000)] .z)
    (regCondPC .r2) = some (0xC000, .n, 0x3003) := by decide
theorem test_ldi_pointer_kbsr :
    after (withKeys [.key 0x30] (fetching 0xFE01 0xA1FE [] [(0x8000, 0x5555)] .z)) (fun t =>
      (t.reg .r0, t.cond, t.kbdr)) = some (0x5555, .p, 0x0030) := by decide
-- "LDR wrap", "LDR DR = BaseR"
theorem test_ldr_wrap : after (fetching 0x3000 0x647F [] [(0xFFFF, 0x7FFF)] .z) (regCondPC .r2) =
    some (0x7FFF, .p, 0x3001) := by decide
theorem test_ldr_same : after (fetching 0x3000 0x6240 [(.r1, 0x4000)] [(0x4000, 0x0042)] .z)
    (regCondPC .r1) = some (0x0042, .p, 0x3001) := by decide
-- "LEA wrap", "LEA of 0xFE00 polls nothing"
theorem test_lea_wrap : after (fetching 0xFFFF 0xE000 [] [] .n) (regCondPC .r0) =
    some (0x0000, .z, 0x0000) := by decide
theorem test_lea_no_poll : after (withKeys [.key 0x41] (fetching 0xFE01 0xE1FE [] [] .z)) (fun t =>
    (t.reg .r0, t.cond, t.keyboard)) = some (0xFE00, .n, [.key 0x41]) := by decide
-- "ST", "ST to KBSR is plain"
theorem test_st : after (fetching 0x3006 0x3001 [(.r0, 0x000C)] [] .n) (fun t =>
    (t.peek 0x3008, t.cond)) = some (0x000C, .n) := by decide
theorem test_st_kbsr : after (withKeys [.key 0x41] (fetching 0xFE01 0x31FE [(.r0, 0x1234)] [] .z))
    (fun t => (t.kbsr, t.keyboard)) = some (0x1234, [.key 0x41]) := by decide
-- "STI", "STI whose pointer word is KBSR, no key"
theorem test_sti : after (fetching 0x3000 0xB001 [(.r0, 0x1234)] [(0x3002, 0x4000)] .z) (fun t =>
    t.peek 0x4000) = some 0x1234 := by decide
theorem test_sti_pointer_kbsr : after (withKeys [.idle] (fetching 0xFE01 0xB1FE [(.r0, 0x1234)] [] .z))
    (fun t => (t.peek 0x0000, t.kbsr)) = some (0x1234, 0x0000) := by decide
-- "STR SR = BaseR", "STR -32 wrap"
theorem test_str_same : after (fetching 0x3000 0x7241 [(.r1, 0x4000)] [] .z) (fun t =>
    t.peek 0x4001) = some 0x4000 := by decide
theorem test_str_wrap : after (fetching 0x3000 0x7260 [(.r1, 0x0010)] [] .z) (fun t =>
    t.peek 0xFFF0) = some 0x0010 := by decide

-- TRAP: "OUT", "unknown vector 0x26"
theorem test_trap_out : after (fetching 0x3000 0xF021 [(.r0, 0xFF41)] [] .n) (fun t =>
    (t.reg .r7, t.reg .r0, t.cond, t.console)) =
      some (0x3001, 0xFF41, .n, [.put 0x41, .flush]) := by decide
theorem test_trap_unknown : after (fetching 0x3000 0xF026 [] [] .z) (fun t =>
    (t.reg .r7, t.run, t.console)) = some (0x3001, .fatal ⟨.unknownTrap, 0x3000, 0xF026⟩, []) := by decide
-- "GETC high byte": the step after the TRAP, in WAIT_INPUT
theorem test_getc_high_byte :
    after (withKeys [.key 0xE9] (inPhase (.waitInput .getc) State.reset)) (fun t =>
      (t.reg .r0, t.cond, t.console, t.phase)) = some (0x00E9, .p, [], .fetch) := by decide
-- "IN": the echo and no flush
theorem test_in_echo :
    after (withKeys [.key 0x7A] (inPhase (.waitInput .input) State.reset)) (fun t =>
      (t.reg .r0, t.cond, t.console)) = some (0x007A, .p, [.put 0x7A]) := by decide
-- "PUTS": the word 0x0100 puts the byte 0 and does not end the string
theorem test_puts_zero_byte :
    after (inPhase (.stringOut .puts 0x4001 false) (fetching 0x3000 0xF022 [] [(0x4001, 0x0100)] .z)) (fun t =>
      (t.console, t.phase)) = some ([.put 0x00], .stringOut .puts 0x4002 true) := by decide
-- S9
theorem test_putsp_words : [0x4100, 0x006C, 0x6548].map (fun w =>
    after (inPhase (.stringOut .putsp 0x4000 true) (fetching 0x3000 0xF024 [] [(0x4000, w)] .z)) State.console) =
      [some [.flush], some [.put 0x6C, .flush], some [.put 0x48, .put 0x65]] := by decide
-- S8, "HALT, unused bits set"
theorem test_halt : after (fetching 0x3000 0xFF25 [] [] .z) (fun t => (t.run, t.pc, t.reg .r7, t.console)) =
    some (.halted, 0x3001, 0x3001, State.reset.params.haltNotice.map ConsoleEvent.put ++ [.flush]) := by
  decide
-- S10
theorem test_illegal_1000 : after (fetching 0x3000 0x8000 [] [] .n) (fun t => (t.run, t.pc, t.cond)) =
    some (.fatal ⟨.illegalOpcode, 0x3000, 0x8000⟩, 0x3001, .n) := by decide
theorem test_illegal_1101 : after (fetching 0x3000 0xDFFF [] [] .z) (fun t => (t.run, t.pc)) =
    some (.fatal ⟨.illegalOpcode, 0x3000, 0xDFFF⟩, 0x3001) := by decide

-- "fetch at KBSR, key pending" and "fetch at KBSR, no key"
theorem test_fetch_kbsr_key :
    after (withKeys [.key 0x41] (fetching 0xFE00 0x1234 [] [] .z)) (fun t =>
      (t.run, t.pc, t.kbdr, t.keyboard)) =
        some (.fatal ⟨.illegalOpcode, 0xFE00, 0x8000⟩, 0xFE01, 0x0041, []) := by decide
theorem test_fetch_kbsr_no_key :
    after (withKeys [.idle] (fetching 0xFE00 0x1234 [] [] .z)) (fun t => (t.run, t.pc)) =
      some (.running, 0xFE01) := by decide
-- "cancel before a fatal word"
theorem test_cancel_before_fatal :
    after ((fetching 0x3000 0x8000 [] [] .z).assertCancel false) (fun t => (t.run, t.pc)) =
      some (.cancelled, 0x3000) := by decide

-- R195: a cancel pending lands between two words of a walk, not before the first
theorem test_cancel_in_walk : [false, true].map (fun begun =>
    after ((inPhase (.stringOut .puts 0x4000 begun) (fetching 0x3000 0xF022 [] [(0x4000, 0x0048)] .z)).assertCancel
      false) (fun t => (t.run, t.console, t.cancelPending))) =
    [some (.running, [.put 0x48], true), some (.cancelled, [], true)] := by decide

-- The reset state is the release of an asserted reset, and its memory is in the canonical form.
theorem test_reset_is_release :
    (State.assertReset State.reset).releaseReset 0x3000 State.reset.regs = State.reset := by decide
theorem test_reset_memory : State.reset.mem.wf = true := by decide

-- S7
theorem test_image : (loadImage [0x30, 0x00, 0x12, 0x34, 0xAB, 0xCD, 0x56] State.reset.assertReset).mem =
    [(0x3000, 0x1234), (0x3001, 0xABCD)] := by decide
theorem test_image_truncated :
    (loadImage [0xFF, 0xFF, 0x00, 0x01, 0x00, 0x02] State.reset.assertReset).mem = [(0xFFFF, 0x0001)] := by
  decide
theorem test_boot_order :
    (boot [[0x30, 0x00, 0x11, 0x11], [0x30, 0x00, 0x22, 0x22], [0x30]] 0x3000 State.reset.regs
      State.reset).peek 0x3000 = 0x2222 := by decide

/-! ### Witnesses: for every statement with hypotheses, a state and operands that meet them -/

/-- The opcode field of a word. -/
abbrev op (w : Word) : BitVec 4 := w.extractLsb' 12 4

theorem witness_IllegalOpcodesAreFatal :
    op 0x8000 = 0b1000 ∧ op 0x8FFF = 0b1000 ∧ op 0xD000 = 0b1101 ∧ op 0xDFFF = 0b1101 := by decide
theorem witness_UnusedBitsIgnored : (op 0x7FFF ≠ 0b1000 ∧ op 0x7FFF ≠ 0b1101) ∧ [0x20, 0x25].all (fun x => decide (0x20 ≤ x ∧ x ≤ 0x25)) = true ∧
    [0x00, 0x1F, 0x26, 0xFF].all (fun x => decide (x < 0x20 ∨ 0x25 < x)) = true := by decide
theorem witness_SignExtensionKeepsValue :
    ((1#1).getLsbD 0 = true ∧ (0#1).getLsbD 0 = false) ∧
    ((0x10#5).getLsbD 4 = true ∧ (0x0F#5).getLsbD 4 = false) ∧
    ((0x8000#16).getLsbD 15 = true ∧ (0x7FFF#16).getLsbD 15 = false) := by decide

/-! A word for the decoding clause of each instruction's statement: its opcode, and the bit that selects
the form where there is one. -/

theorem witness_AddRegisterForm : op 0x1FDF = 0b0001 ∧ (0x1FDF : Word).getLsbD 5 = false := by decide
theorem witness_AddImmediateForm : op 0x1020 = 0b0001 ∧ (0x1020 : Word).getLsbD 5 = true := by decide
theorem witness_AndRegisterForm : op 0x5FDF = 0b0101 ∧ (0x5FDF : Word).getLsbD 5 = false := by decide
theorem witness_AndImmediateForm : op 0x5020 = 0b0101 ∧ (0x5020 : Word).getLsbD 5 = true := by decide
theorem witness_NotComplements : op 0x903F = 0b1001 := by decide
theorem witness_BranchTestsCond : op 0x0FFF = 0b0000 := by decide
theorem witness_JumpThroughRegister : op 0xC1C0 = 0b1100 := by decide
theorem witness_JsrLinksAndJumps : op 0x4800 = 0b0100 ∧ (0x4800 : Word).getLsbD 11 = true := by decide
theorem witness_JsrrLinksBeforeBase : op 0x47FF = 0b0100 ∧ (0x47FF : Word).getLsbD 11 = false := by decide
theorem witness_LoadPcRelative : op 0x2208 = 0b0010 := by decide
theorem witness_LoadIndirect : op 0xA406 = 0b1010 := by decide
theorem witness_LoadBaseOffset : op 0x647F = 0b0110 := by decide
theorem witness_LoadEffectiveAddress : op 0xE002 = 0b1110 := by decide
theorem witness_StorePcRelative : op 0x3001 = 0b0011 ∧ State.reset.mem.wf = true := by decide
theorem witness_StoreIndirect : op 0xB001 = 0b1011 ∧ State.reset.mem.wf = true := by decide
theorem witness_StoreBaseOffset : op 0x7640 = 0b0111 ∧ State.reset.mem.wf = true := by decide

/-- S3: R2 = sext_5(0x1B). -/
theorem witness_AddIsModularSum : (State.setReg .r2 0xFFFB State.reset).reg .r2 = sext (0x1B#5) := by decide

theorem witness_CallsLinkNextAddress :
    ((fetching 0x3001 0x4803 [] [] .z).readyToFetch ∧
      op (State.memRead 0x3001 (fetching 0x3001 0x4803 [] [] .z)).1 = 0b0100) ∧
    ((fetching 0x3000 0x4080 [] [] .z).readyToFetch ∧
      op (State.memRead 0x3000 (fetching 0x3000 0x4080 [] [] .z)).1 = 0b0100) :=
  ⟨⟨⟨rfl, rfl, rfl⟩, by decide⟩, ⟨rfl, rfl, rfl⟩, by decide⟩

theorem witness_MemWriteIsPlain : (fetching 0xFFFF 0x1234 [] [(0x0000, 1)] .z).mem.wf = true := by decide
theorem witness_MemReadPollsKbsr : (fetching 0xFE02 0x1234 [] [] .z).mem.wf = true ∧
    (0xFDFF : Word) ≠ 0xFE00 ∧ (0xFE02 : Word) ≠ 0xFE00 ∧
    (withKeys [.key 0xFF] State.reset).keyboard = .key 0xFF :: [] ∧ State.reset.keyboard = [] ∧
    (withKeys [.idle, .key 0] State.reset).keyboard = .idle :: [.key 0] := by decide

/-- An LDI that reads its pointer at 0xFE00, and a PUTS walk at 0xFE00. -/
theorem witness_PollsCountReadsOfKbsr :
    (∃ t, exec (.ldi .r0 0) (withKeys [.key 1, .key 2] (fetching 0xFE00 0 [] [] .z)) = .next t) ∧
    (inPhase (.stringOut .puts 0xFE00 false) State.reset).walks .puts 0xFE00 ∧
    ∃ t, step (inPhase (.stringOut .puts 0xFE00 false) State.reset) = .next t :=
  ⟨⟨_, rfl⟩, ⟨rfl, false, rfl, rfl⟩, ⟨_, rfl⟩⟩

/-- A store to the very next instruction. -/
theorem witness_StoreSeenByNextFetch :
    storeOf (.st .r1 0) (fetching 0x3001 0 [(.r1, 0xF025)] [] .z) = some (0x3001, 0xF025) ∧
    (fetching 0x3001 0 [(.r1, 0xF025)] [] .z).run = .running ∧
    (fetching 0x3001 0 [(.r1, 0xF025)] [] .z).cancelPending = false ∧
    (fetching 0x3001 0 [(.r1, 0xF025)] [] .z).mem.wf = true := by decide

theorem witness_GetcService :
    (withKeys [.key 0x61] (inPhase (.waitInput .getc) State.reset)).waits .getc ∧
    (withKeys [.key 0x61] (inPhase (.waitInput .getc) State.reset)).cancelPending = false :=
  ⟨⟨rfl, rfl⟩, rfl⟩
theorem witness_InService :
    (withKeys [.key 0x00] (inPhase (.waitInput .input) State.reset)).waits .input ∧
    (withKeys [.key 0x00] (inPhase (.waitInput .input) State.reset)).cancelPending = false :=
  ⟨⟨rfl, rfl⟩, rfl⟩
theorem witness_PutsService : (inPhase (.stringOut .puts 0xFFFF false) State.reset).walks .puts 0xFFFF ∧
    (inPhase (.stringOut .puts 0xFFFF true) State.reset).walks .puts 0xFFFF ∧
    State.reset.cancelPending = false :=
  ⟨⟨rfl, false, rfl, rfl⟩, ⟨rfl, true, rfl, rfl⟩, rfl⟩
theorem witness_PutspService : (inPhase (.stringOut .putsp 0xFFFF false) State.reset).walks .putsp 0xFFFF ∧
    (inPhase (.stringOut .putsp 0xFFFF true) State.reset).walks .putsp 0xFFFF ∧
    State.reset.cancelPending = false :=
  ⟨⟨rfl, false, rfl, rfl⟩, ⟨rfl, true, rfl, rfl⟩, rfl⟩

theorem witness_UnknownVectorIsFatal : [0xF000, 0xF01F, 0xF026, 0xFFFF].all (fun w : Word =>
    decide (op w = 0b1111 ∧ ((w.extractLsb' 0 8).toNat < 0x20 ∨ 0x25 < (w.extractLsb' 0 8).toNat))) =
      true := by decide

/-- "PUTS wrap": the string 0x0041, 0x0042 at 0xFFFF and 0x0000. -/
def wrapString : State :=
  fetching 0x3000 0xF022 [(.r0, 0xFFFF)] [(0xFFFF, 0x0041), (0x0000, 0x0042)] .z

theorem witness_PutsPrintsString :
    wrapString.readyToFetch ∧ wrapString.pc ≠ 0xFE00 ∧ wrapString.peek wrapString.pc = 0xF022 ∧
    (∀ k (h : k < [(0x0041 : Word), 0x0042].length),
      wrapString.reg .r0 + BitVec.ofNat 16 k ≠ 0xFE00 ∧
      wrapString.peek (wrapString.reg .r0 + BitVec.ofNat 16 k) = [(0x0041 : Word), 0x0042][k] ∧
      [(0x0041 : Word), 0x0042][k] ≠ 0x0000) ∧
    wrapString.reg .r0 + BitVec.ofNat 16 2 ≠ 0xFE00 ∧
    wrapString.peek (wrapString.reg .r0 + BitVec.ofNat 16 2) = 0x0000 :=
  ⟨⟨rfl, rfl, rfl⟩, by decide, by decide, by decide, by decide, by decide⟩

/-- Two walks whose first word does not end them. -/
theorem witness_WalkWithoutEndGoesOn : wrapString.cancelPending = false ∧
    ((inPhase (.stringOut .puts 0xFFFF false) wrapString).walks .puts 0xFFFF ∧
      ∀ k t, k < 1 → Host.Core.run Sys2Proof.core k (inPhase (.stringOut .puts 0xFFFF false) wrapString) = .next t →
        (State.memRead (0xFFFF + BitVec.ofNat 16 k) t).1 ≠ 0x0000) ∧
    ((inPhase (.stringOut .putsp 0x3000 false) wrapString).walks .putsp 0x3000 ∧
      ∀ k t, k < 1 → Host.Core.run Sys2Proof.core k (inPhase (.stringOut .putsp 0x3000 false) wrapString) = .next t →
        (State.memRead (0x3000 + BitVec.ofNat 16 k) t).1.extractLsb' 0 8 ≠ 0x00 ∧
        (State.memRead (0x3000 + BitVec.ofNat 16 k) t).1.extractLsb' 8 8 ≠ 0x00) := by
  refine ⟨rfl, ⟨⟨rfl, false, rfl, rfl⟩, fun k t hk h => ?_⟩, ⟨rfl, false, rfl, rfl⟩, fun k t hk h => ?_⟩ <;>
  · obtain rfl : k = 0 := by omega
    cases h
    decide
theorem witness_PutspWalkEnds : (inPhase (.stringOut .putsp 0xFE01 false) wrapString).mem.wf = true ∧
    (inPhase (.stringOut .putsp 0xFE01 false) wrapString).walks .putsp 0xFE01 ∧
    (inPhase (.stringOut .putsp 0xFE01 false) wrapString).cancelPending = false :=
  ⟨by decide, ⟨rfl, false, rfl, rfl⟩, rfl⟩

theorem witness_StepRunsFetchedInstruction : State.reset.readyToFetch := ⟨rfl, rfl, rfl⟩
/-- Each terminal run state, in a block that is not held in RESET and in one that is. -/
theorem witness_TerminalStatesAreFinal :
    ([RunState.halted, .fatal ⟨.unknownTrap, 0x3000, 0xF026⟩, .cancelled].map fun r =>
      let s := { State.reset with run := r }
      (s.run.terminal, decide (s.phase ≠ .reset), s.assertReset.run.terminal, decide (s.assertReset.phase ≠ .reset))) =
      [(true, true, true, false), (true, true, true, false), (true, true, true, false)] := by decide
theorem witness_FatalNamesFetchedInstruction :
    ((fetching 0xFE00 0 [] [] .z).readyToFetch ∧ (fetching 0x3000 0xF0FF [] [] .z).readyToFetch) ∧
    after (withKeys [.key 0] (fetching 0xFE00 0 [] [] .z)) State.run =
      some (.fatal ⟨.illegalOpcode, 0xFE00, 0x8000⟩) ∧
    after (fetching 0x3000 0xF0FF [] [] .z) State.run = some (.fatal ⟨.unknownTrap, 0x3000, 0xF0FF⟩) :=
  ⟨⟨⟨rfl, rfl, rfl⟩, ⟨rfl, rfl, rfl⟩⟩, by decide, by decide⟩

/-- An ADD changes R2 and COND; GETC taking its byte changes R0 and COND. -/
theorem witness_RegisterWriters :
    after (fetching 0x3000 0x1401 [(.r0, 0xFFFF), (.r1, 2)] [] .z) (fun t => t.reg .r2) = some 1 ∧
    (fetching 0x3000 0x1401 [(.r0, 0xFFFF), (.r1, 2)] [] .z).reg .r2 = 0 ∧
    after (withKeys [.key 0x61] (inPhase (.waitInput .getc) State.reset)) (fun t => t.reg .r0) =
      some 0x0061 ∧ State.reset.reg .r0 = 0 := by decide
theorem witness_CondWritersAndReaders :
    after (fetching 0x3000 0x1401 [(.r0, 0xFFFF), (.r1, 2)] [] .z) State.cond = some .p ∧
    after (withKeys [.key 0x61] (inPhase (.waitInput .getc) State.reset)) State.cond = some .p ∧
    State.reset.cond = .z := by decide

/-- A step that runs no BR: an ADD. -/
theorem witness_CondWritersAndReaders_no_br :
    (∃ t, step (fetching 0x3000 0x1401 [] [] .z) = .next t) ∧
    ¬ ∃ n z p off9 u, (fetching 0x3000 0x1401 [] [] .z).executes (.br n z p off9) u := by
  refine ⟨⟨_, rfl⟩, ?_⟩
  rintro ⟨n, z, p, o, u, ⟨-, h, -⟩ | ⟨-, w, h, -⟩⟩
  · exact absurd (h.trans (show _ = Instr.add .r2 .r0 0 .r1 by decide)) (by intro h; cases h)
  · cases h

/-- A fetch that runs a BR, and a step in RESET, which runs nothing. -/
theorem witness_PcChanges :
    (fetching 0x3000 0x0402 [] [] .z).executes (.br false true false 2)
      (fetching 0x3000 0x0402 [] [] .z).fetch ∧
    (∃ t, step (fetching 0x3000 0x0402 [] [] .z) = .next t) ∧
    (∃ t, step State.reset.assertReset = .next t) ∧ ¬ ∃ i u, State.reset.assertReset.executes i u := by
  refine ⟨.inl ⟨⟨rfl, rfl, rfl⟩, by decide, rfl⟩, ⟨_, rfl⟩, ⟨_, rfl⟩, ?_⟩
  rintro ⟨i, u, ⟨⟨-, h, -⟩, -⟩ | ⟨-, w, h, -⟩⟩ <;> cases h

/-- A store, and a poll that changes 0xFE00 and 0xFE02. -/
theorem witness_MemoryWriters :
    (fetching 0x3000 0x3001 [(.r0, 0x000C)] [] .z).mem.wf = true ∧
    after (fetching 0x3000 0x3001 [(.r0, 0x000C)] [] .z) (fun t => t.peek 0x3002) = some 0x000C ∧
    (fetching 0x3000 0x3001 [(.r0, 0x000C)] [] .z).peek 0x3002 = 0 ∧
    after (withKeys [.key 0x41] (fetching 0xFE01 0x21FE [] [] .z)) (fun t => (t.kbsr, t.kbdr)) =
      some (0x8000, 0x0041) ∧
    (fetching 0xFE01 0x21FE [] [] .z).kbsr = 0 ∧ (fetching 0xFE01 0x21FE [] [] .z).kbdr = 0 := by decide

/-- OUT, the echo of IN and a word of PUTS put something. -/
theorem witness_StreamsMoveForward :
    after (fetching 0x3000 0xF021 [] [] .z) State.console = some [.put 0, .flush] ∧
    after (withKeys [.key 0x7A] (inPhase (.waitInput .input) State.reset)) State.console =
      some [.put 0x7A] ∧
    after (inPhase (.stringOut .puts 0xFFFF false) wrapString) State.console = some [.put 0x41] := by decide

theorem witness_WaitInputBlocks :
    (inPhase (.waitInput .input) State.reset).waits .input ∧
    (inPhase (.waitInput .input) State.reset).cancelPending = false ∧
    (inPhase (.waitInput .input) State.reset).keyboard = [] ∧
    (withKeys [.key 0xFF, .key 1] (inPhase (.waitInput .input) State.reset)).waits .input ∧
    (withKeys [.idle] (inPhase (.waitInput .getc) State.reset)).waits .getc :=
  ⟨⟨rfl, rfl⟩, rfl, rfl, ⟨rfl, rfl⟩, rfl, rfl⟩

/-- A walk before its first word, and a step of it with no cancel pending. -/
theorem witness_CancelIsTaken_first_word :
    (inPhase (.stringOut .puts 0xFFFF false) wrapString).run = .running ∧
    ∃ t, step { inPhase (.stringOut .puts 0xFFFF false) wrapString with cancelPending := false } = .next t :=
  ⟨rfl, _, rfl⟩

/-- A running block outside RESET, with a cancel not yet and already pending, and a step of each. -/
theorem witness_CancelIsTaken_port :
    (State.reset.run = .running ∧ State.reset.phase ≠ .reset ∧ State.reset.cancelPending = false ∧
      (State.reset.assertCancel true).cancelPending = true ∧
      (State.reset.assertCancel true).phase ≠ .reset) ∧
    (∃ t, step State.reset = .next t) ∧ ∃ t, step (State.reset.assertCancel true) = .next t :=
  ⟨by decide, ⟨_, rfl⟩, _, rfl⟩

/-- A cancel pending in FETCH, in STRING_OUT, and in WAIT_INPUT with no answer and with an idle one. -/
theorem witness_CancelIsTaken :
    [State.reset, inPhase (.stringOut .puts 0 true) State.reset, inPhase (.waitInput .getc) State.reset,
      withKeys [.idle] (inPhase (.waitInput .input) State.reset)].map (fun s =>
        ((s.assertCancel true).run, (s.assertCancel true).cancelPending, (s.assertCancel true).phase,
          (s.assertCancel true).keyboard)) =
    [(.running, true, .fetch, []), (.running, true, .stringOut .puts 0 true, []),
      (.running, true, .waitInput .getc, []), (.running, true, .waitInput .input, [.idle])] := by decide
theorem witness_CancelRaceAdmitsBothOrders :
    ((withKeys [.key 0x61] (inPhase (.waitInput .getc) State.reset)).assertCancel true).waits .getc ∧
    ((withKeys [.key 0x61] (inPhase (.waitInput .getc) State.reset)).assertCancel true).cancelPending =
      true :=
  ⟨⟨rfl, rfl⟩, rfl⟩

theorem witness_BootWriteOnlyInReset : State.reset.assertReset.phase = .reset ∧
    State.reset.phase ≠ .reset ∧ State.reset.assertReset.mem.wf = true := by decide
theorem witness_ImageLoadsAtOrigin :
    State.reset.assertReset.phase = .reset ∧ State.reset.assertReset.mem.wf = true := by decide

/-- A state in FATAL that has the invariant, with a record that is true of it. -/
def fatalState : State :=
  { State.reset with pc := 0x3001, run := .fatal ⟨.unknownTrap, 0x3000, 0xF026⟩ }

theorem witness_HostKeepsInvariant : fatalState.Inv where
  memCanonical := by decide
  notMidInstruction := fun h => by cases h
  linkedInService := by rintro (⟨_, h⟩ | ⟨_, _, _, h⟩) <;> cases h
  fatalTruthful := by
    rintro r h
    cases h
    exact ⟨⟨by decide, by decide⟩, by decide⟩

/-- A state in STRING_OUT that has the invariant, and steps. -/
theorem witness_StepKeepsInvariant :
    (inPhase (.stringOut .puts 0xFFFF false) (State.setReg .r7 0x3000 wrapString)).Inv ∧
    ∃ t, step (inPhase (.stringOut .puts 0xFFFF false) (State.setReg .r7 0x3000 wrapString)) = .next t :=
  ⟨⟨by decide, fun _ _ h => (by cases h), fun _ => (by decide), fun _ h => (by cases h)⟩, ⟨_, rfl⟩⟩

end Sys2Proof.Tests
end

/-! The sign extension of R9: an equation per value of the top bit, the agreement with the library's
`BitVec.signExtend`, and from that the signed value. -/

namespace Sys2Proof.Machine

variable {n : Nat} {v : BitVec n}

theorem sext_of_msb_true (h : v.msb = true) :
    sext v = v.setWidth 16 ||| ((0xFFFF : Word) <<< n) := if_pos h

theorem sext_of_msb_false (h : v.msb = false) : sext v = v.setWidth 16 := if_neg (by simp [h])

/-- The mask R9 ORs in has exactly the bits from `n` up. -/
theorem getElem_signMask (n i : Nat) (hi : i < 16) :
    ((0xFFFF : Word) <<< n)[i] = !decide (i < n) := by
  have hones : (0xFFFF : Word) = BitVec.allOnes 16 := rfl
  rw [hones, BitVec.getElem_shiftLeft, BitVec.getElem_allOnes, Bool.and_true]

/-- R9's extension is the library's: below the width both give the bit of `v`, from there on both give
its top bit. -/
theorem sext_eq_signExtend (v : BitVec n) : sext v = v.signExtend 16 := by
  cases h : v.msb with
  | false => rw [sext_of_msb_false h, BitVec.signExtend_eq_setWidth_of_msb_false h]
  | true =>
    rw [sext_of_msb_true h]
    ext i hi
    rw [BitVec.getElem_or, getElem_signMask, BitVec.getElem_setWidth, BitVec.getElem_signExtend]
    by_cases hin : i < n
    · simp [hin]
    · simp [hin, h]

theorem toInt_sext (hn : n ≤ 16) (v : BitVec n) : (sext v).toInt = v.toInt := by
  rw [sext_eq_signExtend, BitVec.toInt_signExtend_of_le hn]

end Sys2Proof.Machine

namespace Sys2Proof.Proofs
open Sys2Proof.Machine

/-- Settles O7: bit `n - 1` is the top bit, so the first two clauses are the two equations of `sext`;
the signed value is kept because `sext` is the library's sign extension. -/
theorem signExtensionKeepsValue : Obligations.SignExtensionKeepsValue := by
  intro n v _ hn
  rw [← BitVec.msb_eq_getLsbD_last]
  exact ⟨sext_of_msb_true, sext_of_msb_false, toInt_sext hn v⟩

end Sys2Proof.Proofs

/-! The state, the step and the ports as the statements about whole steps need them: what the handlers
change and keep, the six kinds of state with the step of each, and what a step depends on. -/

namespace Sys2Proof.Machine

variable {s t u : State} {i : Instr}

/-! ### What the fetch and the handlers change and keep -/

@[simp] theorem State.fetch_params (s : State) : s.fetch.params = s.params := by simp [s.fetch_eq]
@[simp] theorem State.fetch_cancelPending (s : State) :
    s.fetch.cancelPending = s.cancelPending := by simp [s.fetch_eq]
@[simp] theorem State.fetch_cancelFirst (s : State) :
    s.fetch.cancelFirst = s.cancelFirst := by simp [s.fetch_eq]

theorem State.executes_run (h : s.executes i u) : u.run = .running := by
  rcases h with ⟨⟨hr, _, _⟩, _, rfl⟩ | ⟨hr, _, _, _, rfl⟩
  · rw [State.fetch_run, hr]
  · exact hr

theorem State.executes_phase (h : s.executes i u) : ∃ w, u.phase = .execute w := by
  rcases h with ⟨_, _, rfl⟩ | ⟨_, w, hp, _, rfl⟩
  · exact ⟨_, rfl⟩
  · exact ⟨w, hp⟩

theorem State.executes_reg (h : s.executes i u) (r : Reg) : u.reg r = s.reg r := by
  rcases h with ⟨_, _, rfl⟩ | ⟨_, _, _, _, rfl⟩
  · exact s.fetch_reg r
  · rfl

theorem State.executes_wf (h : s.executes i u) (hm : s.mem.wf = true) : u.mem.wf = true := by
  rcases h with ⟨_, _, rfl⟩ | ⟨_, _, _, _, rfl⟩
  · exact State.afterRead_wf hm s.pc
  · exact hm

theorem exec_wf (h : exec i s = .next t) (hm : s.mem.wf = true) : t.mem.wf = true := by
  obtain ⟨g, c, pc, m, r, ph, o, rfl, -, -, -, hst, -, -⟩ := exec_shape h
  obtain ⟨m', k, used, hu, -, hw⟩ := s.afterReads_frame (readAddrs i s)
  rcases hst with rfl | ⟨a, v, -, rfl⟩
  · rw [hu]; exact (hw hm).1
  · rw [hu]; exact Memory.wf_write (hw hm).1 a v

@[simp] theorem State.setRegCC_run (dr : Reg) (v : Word) (s : State) :
    (State.setRegCC dr v s).run = s.run := rfl

/-- A handler other than TRAP's goes back to FETCH and leaves the run state alone, or, for an illegal
opcode, stops the block where the FSM stands (R35, R210). -/
theorem exec_ends (h : exec i s = .next t) :
    (t.run = s.run ∧ t.phase = .fetch) ∨ (∃ x v, i = .trap x v) ∨
      (t.run.terminal = true ∧ t.phase = s.phase) := by
  cases i
  case trap x v => exact .inr (.inl ⟨x, v, rfl⟩)
  case illegal1000 b | illegal1101 b => cases h; exact .inr (.inr ⟨rfl, rfl⟩)
  case br n z p off => cases h; refine .inl ⟨?_, rfl⟩; split <;> rfl
  all_goals
    cases h
    exact .inl ⟨by simp, rfl⟩

/-- After any TRAP R7 is the address the block continues at (R180, R181). -/
theorem exec_trap_linked {x : BitVec 4} {v : BitVec 8} (h : exec (.trap x v) s = .next t) :
    t.reg .r7 = t.pc := by
  obtain ⟨r, ph, o, e⟩ := dispatch_frame s.link v (encode (.trap x v))
  simp only [exec, execTrap, e] at h
  cases h
  exact Regs.get_set_self s.regs .r7 s.pc

/-- No service leaves the block in EXECUTE while it runs: HALT and an undefined vector, which keep the
phase, stop it. -/
theorem dispatch_not_execute {v : Byte} {instr w : Word}
    (h : (dispatch v instr s).run = .running) : (dispatch v instr s).phase ≠ .execute w := by
  unfold dispatch at h ⊢
  split at h
  case h_6 | h_7 => cases h
  all_goals intro hp; cases hp

/-! ### The word of a fatal record -/

theorem field_encode_illegal1000 (b : BitVec 12) : field (encode (.illegal1000 b)) 12 4 = 0b1000#4 := by
  simp [encode, field_or, field_place, field_place_other, Op.code]

theorem field_encode_illegal1101 (b : BitVec 12) : field (encode (.illegal1101 b)) 12 4 = 0b1101#4 := by
  simp [encode, field_or, field_place, field_place_other, Op.code]

theorem field_encode_trap_opcode (x : BitVec 4) (v : BitVec 8) :
    field (encode (.trap x v)) 12 4 = 0b1111#4 := by
  simp [encode, field_or, field_place, field_place_other, Op.code]

theorem field_encode_trap_vector (x : BitVec 4) (v : BitVec 8) :
    field (encode (.trap x v)) 0 8 = v := by
  simp [encode, field_or, field_place, field_place_other]

/-- The vectors without a service are those outside 0x20 to 0x25 (R182, R196). -/
theorem serviceOf_eq_none_iff (v : Byte) :
    serviceOf v = none ↔ v.toNat < 0x20 ∨ 0x25 < v.toNat := by
  revert v; decide

/-- A record raised by an instruction that has no meaning or no service is true of it. -/
theorem exec_fatal_truthful {r : FatalRecord} (hs : s.run = .running) (h : exec i s = .next t)
    (ht : t.run = .fatal r) : r.truthful ∧ t.pc = r.faultPC + 1 := by
  have hpc : s.pc = s.pc - 1 + 1 := (sub_add_cancel _ _).symm
  rcases exec_fatal hs h ht with ⟨rfl, ⟨b, rfl⟩ | ⟨b, rfl⟩⟩ | ⟨rfl, x, v, rfl, hv⟩ <;> cases ht
  · exact ⟨.inl (field_encode_illegal1000 b), hpc⟩
  · exact ⟨.inr (field_encode_illegal1101 b), hpc⟩
  · refine ⟨⟨field_encode_trap_opcode x v, ?_⟩, hpc⟩
    rw [show (encode (.trap x v)).extractLsb' 0 8 = v from field_encode_trap_vector x v]
    exact (serviceOf_eq_none_iff v).mp hv

/-! ### The invariant -/

/-- The invariant speaks of five fields alone. -/
theorem State.Inv.of_same (h : s.Inv) (hm : t.mem.wf = true) (hg : t.regs = s.regs) (hpc : t.pc = s.pc)
    (hr : t.run = s.run) (hp : t.phase = s.phase) : t.Inv where
  memCanonical := hm
  notMidInstruction := by rw [hr, hp]; exact h.notMidInstruction
  linkedInService := by rw [hp, State.reg, hg, hpc]; exact h.linkedInService
  fatalTruthful := by rw [hr, hpc]; exact h.fatalTruthful

/-- In FETCH or RESET the invariant asks for canonical memory and a true fatal record only. -/
theorem State.Inv.of_no_service (hm : s.mem.wf = true) (hp : s.phase = .fetch ∨ s.phase = .reset)
    (hf : ∀ r, s.run = .fatal r → r.truthful ∧ s.pc = r.faultPC + 1) : s.Inv where
  memCanonical := hm
  notMidInstruction := by rcases hp with hp | hp <;> simp [hp]
  linkedInService := by rcases hp with hp | hp <;> simp [hp]
  fatalTruthful := hf

/-- A handler that starts in EXECUTE ends in a state with the invariant. -/
theorem exec_inv {w : Word} (hs : s.run = .running) (hp : s.phase = .execute w) (hm : s.mem.wf = true)
    (h : exec i s = .next t) : t.Inv where
  memCanonical := exec_wf h hm
  notMidInstruction := by
    intro ht w
    rcases exec_ends h with ⟨-, hf⟩ | ⟨x, v, rfl⟩ | ⟨hstop, hkeep⟩
    · simp [hf]
    · cases h; exact dispatch_not_execute ht
    · simp [ht, RunState.terminal] at hstop
  linkedInService := by
    intro hsvc
    rcases exec_ends h with ⟨-, hf⟩ | ⟨x, v, rfl⟩ | ⟨hstop, hkeep⟩
    · simp [hf] at hsvc
    · exact exec_trap_linked h
    · simp [hkeep, hp] at hsvc
  fatalTruthful := fun _ ht => exec_fatal_truthful hs h ht

/-- One word of a walk changes neither R7 nor PC, and ends in FETCH or at the next word. -/
theorem walkWord_inv {svc : StringService} {ptr : Word} (hi : s.Inv) (h : s.walks svc ptr) :
    (walkWord svc ptr ((s.afterRead ptr).peek ptr) (s.afterRead ptr)).Inv := by
  obtain ⟨hr, begun, hp, -⟩ := h
  have hlink : s.reg .r7 = s.pc := hi.linkedInService (.inr ⟨svc, ptr, begun, hp⟩)
  obtain ⟨ph, o, e, hph⟩ := walkWord_frame s svc ptr
  rw [e]
  exact {
    memCanonical := State.afterRead_wf hi.memCanonical ptr
    notMidInstruction := fun _ w => by rcases hph with rfl | rfl <;> simp
    linkedInService := fun _ => by simpa [State.reg] using hlink
    fatalTruthful := fun r hf => by simp [hr] at hf }

/-! ### What an instruction and a step write: registers, PC, COND and the streams -/

theorem State.executes_cond (h : s.executes i u) : u.cond = s.cond := by
  rcases h with ⟨_, _, rfl⟩ | ⟨_, _, _, _, rfl⟩
  · exact s.fetch_cond
  · rfl

theorem State.executes_console (h : s.executes i u) : u.console = s.console := by
  rcases h with ⟨_, _, rfl⟩ | ⟨_, _, _, _, rfl⟩
  · exact s.fetch_console
  · rfl

theorem State.executes_keyboard (h : s.executes i u) : u.keyboard <:+ s.keyboard := by
  rcases h with ⟨_, _, rfl⟩ | ⟨_, _, _, _, rfl⟩
  · obtain ⟨used, hk⟩ := s.afterRead_keyboard s.pc
    exact ⟨used, hk.symm⟩
  · exact List.suffix_refl _

/-- The fetch leaves the host's strings and its cancel alone. -/
theorem State.executes_host (h : s.executes i u) :
    u.params = s.params ∧ u.cancelPending = s.cancelPending ∧ u.cancelFirst = s.cancelFirst := by
  rcases h with ⟨_, _, rfl⟩ | ⟨_, _, _, _, rfl⟩ <;> simp

theorem exec_reg {r : Reg} (h : exec i s = .next t) (hr : t.reg r ≠ s.reg r) :
    writtenReg i = some r := by
  obtain ⟨g, c, pc, m, rn, ph, o, rfl, hg, -⟩ := exec_shape h
  rcases hg with rfl | ⟨r', v, hw, rfl⟩
  · exact absurd rfl hr
  · by_cases e : r = r'
    · rw [hw, e]
    · exact absurd ((Regs.get_set s.regs r' r v).trans (if_neg e)) hr

theorem exec_cond (h : exec i s = .next t) (hi : setsCond i = false) : t.cond = s.cond := by
  obtain ⟨g, c, pc, m, r, ph, o, rfl, -, hc, -⟩ := exec_shape h
  simpa [hi] using hc

theorem exec_pc (h : exec i s = .next t) : t.pc = (pcTarget i s).getD s.pc := by
  obtain ⟨g, c, pc, m, r, ph, o, rfl, -, -, hpc, -⟩ := exec_shape h
  exact hpc

theorem exec_console (h : exec i s = .next t) :
    ∃ o, t.console = s.console ++ o ∧ (o ≠ [] → ∃ x v, i = .trap x v) := by
  obtain ⟨g, c, pc, m, r, ph, o, rfl, -, -, -, -, -, ho⟩ := exec_shape h
  exact ⟨o, rfl, ho.resolve_left⟩

theorem exec_keyboard (h : exec i s = .next t) : t.keyboard <:+ s.keyboard := by
  obtain ⟨g, c, pc, m, r, ph, o, rfl, -⟩ := exec_shape h
  obtain ⟨m', k, used, hu, hk, -⟩ := s.afterReads_frame (readAddrs i s)
  rw [hu, hk]
  exact ⟨used, rfl⟩

/-- No instruction changes the host's strings or its cancel. -/
theorem exec_host (h : exec i s = .next t) :
    t.params = s.params ∧ t.cancelPending = s.cancelPending ∧ t.cancelFirst = s.cancelFirst := by
  obtain ⟨g, c, pc, m, r, ph, o, rfl, -⟩ := exec_shape h
  obtain ⟨m', k, used, hu, -⟩ := s.afterReads_frame (readAddrs i s)
  rw [hu]
  exact ⟨rfl, rfl, rfl⟩

/-- What the host can do to the registers, PC and COND: nothing, but for a release of reset, which gives
all three their reset values (R241 to R243). -/
theorem HostAction.act_keeps (a : HostAction) (s : State) :
    ((a.act s).regs = s.regs ∧ (a.act s).pc = s.pc ∧ (a.act s).cond = s.cond) ∨
      ∃ e g, a = .releaseReset e g ∧ a.act s = { s with
        regs := g, pc := e, cond := .z, run := .running, phase := .fetch, cancelPending := false } := by
  cases a with
  | assertReset => exact .inl ⟨rfl, rfl, rfl⟩
  | releaseReset e g =>
    simp only [HostAction.act, State.releaseReset]
    split
    · exact .inr ⟨e, g, rfl, rfl⟩
    · exact .inl ⟨rfl, rfl, rfl⟩
  | bootWrite a v =>
    simp only [HostAction.act, State.bootWrite]
    split <;> exact .inl ⟨rfl, rfl, rfl⟩
  | cancel first =>
    simp only [HostAction.act, State.assertCancel]
    split <;> exact .inl ⟨rfl, rfl, rfl⟩
  | keys ks => exact .inl ⟨rfl, rfl, rfl⟩

/-! ### The steps by the state they start from -/

/-- The step from `s` takes the pending cancel: on entry to FETCH, between two words of a walk, or in
WAIT_INPUT with no byte or with the host's draw for the cancel (R220, R221). -/
def State.takesCancel (s : State) : Prop :=
  s.run = .running ∧ s.cancelPending = true ∧
    (s.phase = .fetch ∨ (∃ svc ptr, s.phase = .stringOut svc ptr true) ∨
      ∃ svc, s.phase = .waitInput svc ∧ (s.polled = none ∨ s.cancelFirst = true))

/-- The step from `s` gives the byte `c` to the waiting service. -/
def State.takesByte (s : State) (svc : WaitService) (c : Byte) : Prop :=
  s.waits svc ∧ s.polled = some c ∧ (s.cancelPending && s.cancelFirst) = false

/-- The step from `s` asks for a byte in vain. -/
def State.findsNoByte (s : State) (svc : WaitService) : Prop :=
  s.waits svc ∧ s.polled = none ∧ s.cancelPending = false

theorem step_of_blocked (h : s.run.terminal = true ∨ s.phase = .reset) : step s = .next s := by
  unfold step cycle
  cases hr : s.run with
  | running =>
    have hp : s.phase = .reset := by simpa [hr, RunState.terminal] using h
    simp only [stepRunning, hp]
  | halted => rfl
  | fatal r => rfl
  | cancelled => rfl

theorem step_of_takesCancel (h : s.takesCancel) : step s = .next s.takeCancel := by
  obtain ⟨hr, hc, hp | ⟨svc, ptr, hp⟩ | ⟨svc, hp, hq⟩⟩ := h
  · simp [step, cycle, hr, stepRunning, hp, stepFetch, hc]
  · simp [step, cycle, hr, stepRunning, hp, stepString, hc]
  · rw [step_of_waits ⟨hr, hp⟩]
    unfold stepWait
    cases hk : s.polled with
    | none => simp [hc]
    | some c =>
      have hf : s.cancelFirst = true := by simpa [hk] using hq
      simp [hc, hf]

theorem step_of_takesByte {svc : WaitService} {c : Byte} (h : s.takesByte svc c) :
    step s = .next (completeInput svc c s.afterQuery) := by
  obtain ⟨hw, hk, hc⟩ := h
  simp [step_of_waits hw, stepWait, hk, hc]

theorem step_of_findsNoByte {svc : WaitService} (h : s.findsNoByte svc) :
    step s = .next s.afterQuery := by
  obtain ⟨hw, hk, hc⟩ := h
  simp [step_of_waits hw, stepWait, hk, hc]

/-- Every state is of one of six kinds, and each kind has its equation for the step. -/
theorem State.kinds (s : State) :
    (s.run.terminal = true ∨ s.phase = .reset) ∨ s.takesCancel ∨ (∃ i u, s.executes i u) ∨
      (∃ svc c, s.takesByte svc c) ∨ (∃ svc, s.findsNoByte svc) ∨ ∃ svc ptr, s.walks svc ptr := by
  cases hr : s.run with
  | running =>
    cases hp : s.phase with
    | reset => exact .inl (.inr rfl)
    | fetch =>
      cases hc : s.cancelPending with
      | true => exact .inr (.inl ⟨hr, hc, .inl hp⟩)
      | false => exact .inr (.inr (.inl ⟨_, _, .inl ⟨⟨hr, hp, hc⟩, rfl, rfl⟩⟩))
    | execute w => exact .inr (.inr (.inl ⟨_, _, .inr ⟨hr, w, hp, rfl, rfl⟩⟩))
    | waitInput svc =>
      cases hk : s.polled with
      | none =>
        cases hc : s.cancelPending with
        | true => exact .inr (.inl ⟨hr, hc, .inr (.inr ⟨svc, hp, .inl hk⟩)⟩)
        | false => exact .inr (.inr (.inr (.inr (.inl ⟨svc, ⟨hr, hp⟩, hk, hc⟩))))
      | some c =>
        cases hc : s.cancelPending && s.cancelFirst with
        | true =>
          obtain ⟨hc, hf⟩ := Bool.and_eq_true_iff.mp hc
          exact .inr (.inl ⟨hr, hc, .inr (.inr ⟨svc, hp, .inr hf⟩)⟩)
        | false => exact .inr (.inr (.inr (.inl ⟨svc, c, ⟨hr, hp⟩, hk, hc⟩)))
    | stringOut svc ptr begun =>
      cases hc : begun && s.cancelPending with
      | true =>
        obtain ⟨rfl, hc⟩ := Bool.and_eq_true_iff.mp hc
        exact .inr (.inl ⟨hr, hc, .inr (.inl ⟨svc, ptr, hp⟩)⟩)
      | false => exact .inr (.inr (.inr (.inr (.inr ⟨svc, ptr, hr, begun, hp, hc⟩))))
  | halted => exact .inl (.inl rfl)
  | fatal r => exact .inl (.inl rfl)
  | cancelled => exact .inl (.inl rfl)

/-! ### What a read and a walk's word depend on -/

theorem State.polled_of_key {c : Byte} {rest : List KeyEvent} (h : s.keyboard = .key c :: rest) :
    s.polled = some c := by simp [State.polled, h]

theorem State.polled_of_no_key (h : s.keyboard = [] ∨ ∃ rest, s.keyboard = .idle :: rest) :
    s.polled = none := by
  rcases h with h | ⟨rest, h⟩ <;> simp [State.polled, h]

/-- What a read does depends on memory and the host's input alone. -/
theorem State.afterRead_of_same (a : Word) (hm : t.mem = s.mem) (hk : t.keyboard = s.keyboard) :
    t.afterRead a =
      { t with mem := (s.afterRead a).mem, keyboard := (s.afterRead a).keyboard } := by
  unfold State.afterRead
  split
  · rw [s.kbsrPoll_eq, t.kbsrPoll_eq, State.polled, State.polled, hm, hk]
  · rw [← hm, ← hk]

/-- What a walk does with a word depends on the console alone. -/
theorem walkWord_of_same (svc : StringService) (ptr w : Word) (hc : t.console = s.console) :
    walkWord svc ptr w t = { t with
      console := (walkWord svc ptr w s).console, phase := (walkWord svc ptr w s).phase } := by
  cases svc with
  | puts =>
    simp only [walkWord, putsWord]
    split <;> simp [State.finish, State.enter, State.conFlush, State.conPut, hc]
  | putsp =>
    simp only [walkWord, putspWord]
    split
    · simp [State.finish, State.enter, State.conFlush, hc]
    · split <;> simp [State.finish, State.enter, State.conFlush, State.conPut, hc]

/-- A walk's word changes the console and the phase alone. -/
theorem walkWord_eq (svc : StringService) (ptr w : Word) (s : State) :
    walkWord svc ptr w s = { s with
      console := (walkWord svc ptr w s).console, phase := (walkWord svc ptr w s).phase } :=
  walkWord_of_same svc ptr w rfl

@[simp] theorem walkWord_regs (svc : StringService) (ptr w : Word) (s : State) :
    (walkWord svc ptr w s).regs = s.regs := by rw [walkWord_eq svc ptr w s]
@[simp] theorem walkWord_pc (svc : StringService) (ptr w : Word) (s : State) :
    (walkWord svc ptr w s).pc = s.pc := by rw [walkWord_eq svc ptr w s]
@[simp] theorem walkWord_cond (svc : StringService) (ptr w : Word) (s : State) :
    (walkWord svc ptr w s).cond = s.cond := by rw [walkWord_eq svc ptr w s]
@[simp] theorem walkWord_run (svc : StringService) (ptr w : Word) (s : State) :
    (walkWord svc ptr w s).run = s.run := by rw [walkWord_eq svc ptr w s]
@[simp] theorem walkWord_keyboard (svc : StringService) (ptr w : Word) (s : State) :
    (walkWord svc ptr w s).keyboard = s.keyboard := by rw [walkWord_eq svc ptr w s]
@[simp] theorem walkWord_params (svc : StringService) (ptr w : Word) (s : State) :
    (walkWord svc ptr w s).params = s.params := by rw [walkWord_eq svc ptr w s]
@[simp] theorem walkWord_cancelPending (svc : StringService) (ptr w : Word) (s : State) :
    (walkWord svc ptr w s).cancelPending = s.cancelPending := by rw [walkWord_eq svc ptr w s]
@[simp] theorem walkWord_cancelFirst (svc : StringService) (ptr w : Word) (s : State) :
    (walkWord svc ptr w s).cancelFirst = s.cancelFirst := by rw [walkWord_eq svc ptr w s]
@[simp] theorem walkWord_reg (svc : StringService) (ptr w : Word) (s : State) (r : Reg) :
    (walkWord svc ptr w s).reg r = s.reg r := congrArg (Regs.get · r) (walkWord_regs svc ptr w s)

/-- What a walk's step does depends on memory, the host's input and the console alone. -/
theorem walk_of_same (svc : StringService) (ptr : Word) (hm : t.mem = s.mem)
    (hk : t.keyboard = s.keyboard) (hc : t.console = s.console) :
    let v := walkWord svc ptr ((s.afterRead ptr).peek ptr) (s.afterRead ptr)
    walkWord svc ptr ((t.afterRead ptr).peek ptr) (t.afterRead ptr) =
      { t with mem := v.mem, keyboard := v.keyboard, console := v.console, phase := v.phase } := by
  obtain ⟨ph, o, hv, -⟩ := walkWord_frame s svc ptr
  have ht := State.afterRead_of_same ptr hm hk
  have hcr : (t.afterRead ptr).console = (s.afterRead ptr).console := by simp [hc]
  have hpeek : (t.afterRead ptr).peek ptr = (s.afterRead ptr).peek ptr := by rw [ht]; rfl
  rw [walkWord_of_same svc ptr _ hcr, hpeek]
  simp [ht, hv]

/-! ### COND is read by BR alone -/

/-- The state with `c` for its COND: what COND could have been instead. -/
def State.withCond (c : Cond) (s : State) : State := { s with cond := c }

@[simp] theorem State.withCond_pc (c : Cond) (s : State) : (s.withCond c).pc = s.pc := rfl
@[simp] theorem State.withCond_reg (c : Cond) (s : State) (r : Reg) :
    (s.withCond c).reg r = s.reg r := rfl
@[simp] theorem State.withCond_peek (c : Cond) (s : State) (a : Word) :
    (s.withCond c).peek a = s.peek a := rfl

/-- A write of a register and the flags leaves nothing of the old COND (R29). -/
@[simp] theorem State.setRegCC_withCond (dr : Reg) (v : Word) (c : Cond) (s : State) :
    State.setRegCC dr v (s.withCond c) = State.setRegCC dr v s := by
  rw [State.setRegCC_eq, State.setRegCC_eq]
  rfl

@[simp] theorem State.afterRead_withCond (a : Word) (c : Cond) (s : State) :
    (s.withCond c).afterRead a = (s.afterRead a).withCond c := by
  rw [State.afterRead_of_same (s := s) (t := s.withCond c) a rfl rfl]
  simp [State.withCond]

theorem State.fetch_withCond (c : Cond) (s : State) : (s.withCond c).fetch = s.fetch.withCond c := by
  rw [State.fetch_eq, State.fetch_eq, State.withCond_pc, State.afterRead_withCond]
  rfl

theorem dispatch_withCond (v : Byte) (instr : Word) (c : Cond) (s : State) :
    dispatch v instr (s.withCond c) = (dispatch v instr s).withCond c := by
  unfold dispatch
  split <;> rfl

/-- A handler that sets the flags does the same whatever COND was. -/
theorem exec_withCond_of_setsCond (h : setsCond i = true) (c : Cond) (s : State) :
    exec i (s.withCond c) = exec i s := by
  cases i
  case add | addImm | and | andImm | not | lea =>
    simp [exec, execAdd, execAddImm, execAnd, execAndImm, execNot, execLea]
  case ld | ldr | ldi => simp [exec, execLd, execLdr, execLdi, State.memRead]
  all_goals cases h

/-- A handler that neither sets the flags nor is BR's hands COND through. -/
theorem exec_withCond_of_not_setsCond (h : setsCond i = false)
    (hbr : ∀ n z p off9, i ≠ .br n z p off9) (c : Cond) (he : exec i s = .next t) :
    exec i (s.withCond c) = .next (t.withCond c) := by
  cases i
  case br n z p off9 => exact absurd rfl (hbr n z p off9)
  case st | str | jsr | jsrr | jmp | illegal1000 | illegal1101 => cases he; rfl
  case sti =>
    cases he
    simp only [exec, execSti, State.memRead, State.withCond_pc, State.afterRead_withCond,
      State.withCond_peek]
    rfl
  case trap x v =>
    cases he
    exact congrArg Host.Outcome.next (dispatch_withCond v _ c s.link)
  all_goals cases h

theorem State.executes_withCond (h : s.executes i u) (c : Cond) :
    (s.withCond c).executes i (u.withCond c) := by
  rcases h with ⟨hr, rfl, rfl⟩ | ⟨hr, w, hp, rfl, rfl⟩
  · exact .inl ⟨hr, by simp [State.memRead], (s.fetch_withCond c).symm⟩
  · exact .inr ⟨hr, w, hp, rfl, rfl⟩

/-- `r` is the step to `t` taken from a state that has `c` for the COND `old`: it leaves the COND `t` has,
or the one it was given where `t` has `old`. -/
def StepsAlike (r : Result) (t : State) (old c : Cond) : Prop :=
  ∃ c', r = .next (t.withCond c') ∧ (c' = t.cond ∨ (c' = c ∧ t.cond = old))

/-- An instruction other than BR runs alike under any COND. -/
theorem exec_withCond (hbr : ∀ n z p off9, i ≠ .br n z p off9) (c : Cond) (he : exec i s = .next t) :
    StepsAlike (exec i (s.withCond c)) t s.cond c := by
  cases hi : setsCond i with
  | true => exact ⟨t.cond, (exec_withCond_of_setsCond hi c s).trans he, .inl rfl⟩
  | false => exact ⟨c, exec_withCond_of_not_setsCond hi hbr c he, .inr ⟨rfl, exec_cond he hi⟩⟩

theorem completeInput_withCond (svc : WaitService) (k : Byte) (c : Cond) (s : State) :
    completeInput svc k (s.withCond c) = completeInput svc k s := by
  rw [completeInput_eq, completeInput_eq]
  rfl

theorem walkWord_withCond (svc : StringService) (ptr w : Word) (c : Cond) (s : State) :
    walkWord svc ptr w (s.withCond c) = (walkWord svc ptr w s).withCond c := by
  rw [walkWord_of_same (s := s) (t := s.withCond c) svc ptr w rfl, walkWord_eq svc ptr w s]
  rfl

/-- A step that runs no BR goes alike under any COND, by the kind of the state. -/
theorem step_withCond (h : step s = .next t) (c : Cond)
    (hbr : ¬ ∃ n z p off9 u, s.executes (.br n z p off9) u) :
    StepsAlike (step (s.withCond c)) t s.cond c := by
  rcases s.kinds with hb | hc | ⟨i, u, hx⟩ | ⟨svc, k, hk⟩ | ⟨svc, hn⟩ | ⟨svc, ptr, hw⟩
  · cases (step_of_blocked hb).symm.trans h
    exact ⟨c, step_of_blocked (s := s.withCond c) hb, .inr ⟨rfl, rfl⟩⟩
  · cases (step_of_takesCancel hc).symm.trans h
    exact ⟨c, step_of_takesCancel (s := s.withCond c) hc, .inr ⟨rfl, rfl⟩⟩
  · rw [step_of_executes (State.executes_withCond hx c), ← State.executes_cond hx]
    exact exec_withCond (fun n z p off9 e => hbr ⟨n, z, p, off9, u, e ▸ hx⟩) c
      ((step_of_executes hx).symm.trans h)
  · cases (step_of_takesByte hk).symm.trans h
    refine ⟨_, (step_of_takesByte (s := s.withCond c) hk).trans ?_, .inl rfl⟩
    exact congrArg Host.Outcome.next (completeInput_withCond svc k c s.afterQuery)
  · cases (step_of_findsNoByte hn).symm.trans h
    exact ⟨c, step_of_findsNoByte (s := s.withCond c) hn, .inr ⟨rfl, rfl⟩⟩
  · cases (step_of_walks hw).symm.trans h
    refine ⟨c, (step_of_walks (s := s.withCond c) hw).trans ?_, .inr ⟨rfl, by simp⟩⟩
    rw [State.afterRead_withCond, State.withCond_peek, walkWord_withCond]

/-! ### The ports and the phase -/

theorem Phase.isReset_iff {ph : Phase} : ph.isReset = true ↔ ph = .reset := by
  cases ph <;> simp [Phase.isReset]

theorem State.bootWrite_of_reset (h : s.phase = .reset) (a v : Word) :
    s.bootWrite a v = State.memWrite a v s := if_pos (Phase.isReset_iff.mpr h)

theorem State.bootWrite_of_not_reset (h : s.phase ≠ .reset) (a v : Word) : s.bootWrite a v = s :=
  if_neg fun hp => h (Phase.isReset_iff.mp hp)

theorem State.releaseReset_of_not_reset (h : s.phase ≠ .reset) (e : Word) (g : Regs) :
    s.releaseReset e g = s :=
  if_neg fun hp => h (Phase.isReset_iff.mp hp)

theorem State.assertCancel_of_terminal (h : s.run.terminal = true) (first : Bool) :
    s.assertCancel first = s := if_pos (by simp [h])

/-- A cancel asserted on a running block outside RESET: one already pending keeps its draw (R45). -/
theorem State.assertCancel_of_running (hr : s.run = .running) (hp : s.phase ≠ .reset) (first : Bool) :
    s.assertCancel first = { s with
      cancelPending := true, cancelFirst := if s.cancelPending then s.cancelFirst else first } := by
  have hnr : s.phase.isReset = false := Bool.eq_false_iff.mpr fun h => hp (Phase.isReset_iff.mp h)
  cases hc : s.cancelPending with
  | true => rw [State.assertCancel, if_pos (by simp [hc]), if_pos rfl, ← hc]
  | false => simp [State.assertCancel, hc, hr, hnr, RunState.terminal]

/-- No step changes the pending cancel or its draw. -/
theorem step_keeps_cancel (h : step s = .next t) :
    t.cancelPending = s.cancelPending ∧ t.cancelFirst = s.cancelFirst := by
  rcases step_cases h with ⟨rfl, -⟩ | ⟨rfl, -, -⟩ | ⟨i, u, hx, he⟩ | ⟨svc, c, -, -, rfl⟩ |
    ⟨svc, -, -, rfl⟩ | ⟨svc, ptr, -, rfl⟩
  · exact ⟨rfl, rfl⟩
  · exact ⟨rfl, rfl⟩
  · obtain ⟨-, hp, hf⟩ := exec_host he
    obtain ⟨-, hp', hf'⟩ := State.executes_host hx
    exact ⟨hp.trans hp', hf.trans hf'⟩
  · rw [completeInput_eq]; exact ⟨rfl, rfl⟩
  · exact ⟨rfl, rfl⟩
  · simp

/-- The first word of a walk is handled whether or not a cancel is pending, and leaves it as it is. -/
theorem step_first_word {svc : StringService} {ptr : Word} (hr : s.run = .running)
    (hp : s.phase = .stringOut svc ptr false)
    (h : step { s with cancelPending := false } = .next t) :
    step { s with cancelPending := true } = .next { t with cancelPending := true } ∧
      t.run = .running := by
  have hw : ∀ b, State.walks { s with cancelPending := b } svc ptr := fun _ => ⟨hr, false, hp, rfl⟩
  cases (step_of_walks (hw false)).symm.trans h
  rw [step_of_walks (hw true),
    walk_of_same (t := { s with cancelPending := true }) (s := { s with cancelPending := false })
      svc ptr rfl rfl rfl]
  obtain ⟨ph, o, e, -⟩ := walkWord_frame { s with cancelPending := false } svc ptr
  rw [e]
  simp [hr]

/-! ### The ranges of `setcc` -/

/-- Bit 15 is the sign: set, the word is 0x8000 or above (R11). -/
theorem getLsbD_15_iff (v : Word) : v.getLsbD 15 = true ↔ 0x8000 ≤ v.toNat := by
  have h : v.getLsbD 15 = decide (2 ^ 15 ≤ v.toNat) := BitVec.msb_eq_decide v
  rw [h, decide_eq_true_iff]
  rfl

/-- `setcc` by the unsigned value of the word (R27). -/
theorem Cond.ofWord_cases (v : Word) :
    (v.toNat = 0 ∧ Cond.ofWord v = .z) ∨ (0x8000 ≤ v.toNat ∧ Cond.ofWord v = .n) ∨
      (1 ≤ v.toNat ∧ v.toNat ≤ 0x7FFF ∧ Cond.ofWord v = .p) := by
  unfold Cond.ofWord
  by_cases h0 : v = 0x0000
  · exact .inl ⟨congrArg BitVec.toNat h0, if_pos h0⟩
  · rw [if_neg h0]
    have hv : v.toNat ≠ 0 := fun h => h0 (BitVec.eq_of_toNat_eq h)
    by_cases hs : v.getLsbD 15 = true
    · exact .inr (.inl ⟨(getLsbD_15_iff v).mp hs, if_pos hs⟩)
    · rw [if_neg hs]
      rw [getLsbD_15_iff] at hs
      exact .inr (.inr ⟨by omega, by omega, rfl⟩)

end Sys2Proof.Machine

namespace Sys2Proof.Proofs
open Sys2Proof.Machine

/-- Settles O59, by the six cases of a step. -/
theorem stepKeepsInvariant : Obligations.StepKeepsInvariant := by
  intro s t hi h
  rcases step_cases h with ⟨rfl, -⟩ | ⟨rfl, -, -⟩ | ⟨i, u, hx, he⟩ | ⟨svc, c, ⟨hr, -⟩, -, rfl⟩ |
    ⟨svc, -, -, rfl⟩ | ⟨svc, ptr, hw, rfl⟩
  · exact hi
  · exact ⟨hi.memCanonical, nofun, hi.linkedInService, nofun⟩
  · obtain ⟨w, hp⟩ := State.executes_phase hx
    exact exec_inv (State.executes_run hx) hp (State.executes_wf hx hi.memCanonical) he
  · rw [completeInput_eq]
    exact .of_no_service hi.memCanonical (.inl rfl) fun r hf => by cases hr.symm.trans hf
  · exact hi.of_same hi.memCanonical rfl rfl rfl rfl
  · exact walkWord_inv hi hw

/-- Settles O60, by the host's five actions. -/
theorem hostKeepsInvariant : Obligations.HostKeepsInvariant := by
  intro a s hi
  cases a with
  | assertReset => exact .of_no_service hi.memCanonical (.inr rfl) hi.fatalTruthful
  | releaseReset entryPC gpr =>
    simp only [HostAction.act, State.releaseReset]
    split
    · exact .of_no_service hi.memCanonical (.inl rfl) nofun
    · exact hi
  | bootWrite a v =>
    simp only [HostAction.act, State.bootWrite]
    split
    · exact hi.of_same (State.memWrite_wf hi.memCanonical a v) rfl rfl rfl rfl
    · exact hi
  | cancel first =>
    simp only [HostAction.act, State.assertCancel]
    split
    · exact hi
    · exact hi.of_same hi.memCanonical rfl rfl rfl rfl
  | keys ks => exact hi.of_same hi.memCanonical rfl rfl rfl rfl

/-- Settles O47, by the six cases of a step. -/
theorem registerWriters : Obligations.RegisterWriters := by
  intro s t r h hr
  rcases step_cases h with ⟨rfl, -⟩ | ⟨rfl, -, -⟩ | ⟨i, u, hx, he⟩ | ⟨svc, c, hw, -, rfl⟩ |
    ⟨svc, -, -, rfl⟩ | ⟨svc, ptr, -, rfl⟩
  · exact absurd rfl hr
  · exact absurd rfl hr
  · rw [← State.executes_reg hx] at hr
    exact .inl ⟨i, u, hx, exec_reg he hr⟩
  · refine .inr ⟨⟨svc, hw⟩, ?_⟩
    by_contra hne
    rw [completeInput_eq] at hr
    exact hr ((Regs.get_set s.regs .r0 r (zext c)).trans (if_neg hne))
  · exact absurd rfl hr
  · simp at hr

/-- Settles O48: the writers by the six cases of a step and the host's actions, the readers by
`step_withCond`. -/
theorem condWritersAndReaders : Obligations.CondWritersAndReaders := by
  refine ⟨fun s t h hc => ?_, fun a s => ?_, fun s t c h hbr => step_withCond h c hbr⟩
  · rcases step_cases h with ⟨rfl, -⟩ | ⟨rfl, -, -⟩ | ⟨i, u, hx, he⟩ | ⟨svc, c, hw, -, rfl⟩ |
      ⟨svc, -, -, rfl⟩ | ⟨svc, ptr, -, rfl⟩
    · exact absurd rfl hc
    · exact absurd rfl hc
    · refine .inl ⟨i, u, hx, Bool.of_not_eq_false fun hi => hc ?_⟩
      exact (exec_cond he hi).trans (State.executes_cond hx)
    · exact .inr ⟨svc, hw⟩
    · exact absurd rfl hc
    · simp at hc
  · rcases a.act_keeps s with ⟨-, -, hcond⟩ | ⟨e, g, rfl, hs⟩
    · exact .inl hcond
    · exact .inr ⟨e, g, rfl, by rw [hs]⟩

/-- Settles O49: the handler's PC is `exec_pc`, and no other step writes PC. -/
theorem pcChanges : Obligations.PcChanges := by
  refine ⟨fun s => rfl, fun s t u i h hx => ?_, fun s t h hno => ?_, fun a s => ?_⟩
  · exact exec_pc ((step_of_executes hx).symm.trans h)
  · rcases step_cases h with ⟨rfl, -⟩ | ⟨rfl, -, -⟩ | ⟨i, u, hx, -⟩ | ⟨svc, c, -, -, rfl⟩ |
      ⟨svc, -, -, rfl⟩ | ⟨svc, ptr, -, rfl⟩
    · rfl
    · rfl
    · exact absurd ⟨i, u, hx⟩ hno
    · rw [completeInput_eq]; rfl
    · rfl
    · simp
  · rcases a.act_keeps s with ⟨-, hpc, -⟩ | ⟨e, g, rfl, hs⟩
    · exact .inl hpc
    · exact .inr ⟨e, g, rfl, by rw [hs]⟩

/-- Settles O51, by the six cases of a step. -/
theorem streamsMoveForward : Obligations.StreamsMoveForward := by
  intro s t h
  have quiet : ∃ o, s.console = s.console ++ o ∧ (o ≠ [] → (∃ x v u, s.executes (.trap x v) u) ∨
      s.waits .input ∨ ∃ svc ptr, s.walks svc ptr) := ⟨[], (List.append_nil _).symm, absurd rfl⟩
  rcases step_cases h with ⟨rfl, -⟩ | ⟨rfl, -, -⟩ | ⟨i, u, hx, he⟩ | ⟨svc, c, hw, -, rfl⟩ |
    ⟨svc, -, -, rfl⟩ | ⟨svc, ptr, hw, rfl⟩
  · exact ⟨quiet, ⟨[], rfl⟩, rfl⟩
  · exact ⟨quiet, ⟨[], rfl⟩, rfl⟩
  · obtain ⟨o, ho, htrap⟩ := exec_console he
    obtain ⟨used, hk⟩ := (exec_keyboard he).trans (State.executes_keyboard hx)
    refine ⟨⟨o, by rw [ho, State.executes_console hx], fun hne => .inl ?_⟩, ⟨used, hk.symm⟩,
      (exec_host he).1.trans (State.executes_host hx).1⟩
    obtain ⟨x, v, rfl⟩ := htrap hne
    exact ⟨x, v, u, hx⟩
  · obtain ⟨used, hk⟩ := List.tail_suffix s.keyboard
    rw [completeInput_eq]
    cases svc with
    | getc => exact ⟨quiet, ⟨used, hk.symm⟩, rfl⟩
    | input => exact ⟨⟨_, rfl, fun _ => .inr (.inl hw)⟩, ⟨used, hk.symm⟩, rfl⟩
  · obtain ⟨used, hk⟩ := List.tail_suffix s.keyboard
    exact ⟨quiet, ⟨used, hk.symm⟩, rfl⟩
  · obtain ⟨ph, o, e, -⟩ := walkWord_frame s svc ptr
    refine ⟨⟨o, congrArg State.console e, fun _ => .inr (.inr ⟨svc, ptr, hw⟩)⟩, ?_, by simp⟩
    rw [walkWord_keyboard]
    exact s.afterRead_keyboard ptr

/-- Settles O53: the port, the steps that keep a cancel, a walk's first word, and the points of
`takesCancel`. -/
theorem cancelIsTaken : Obligations.CancelIsTaken := by
  refine ⟨fun s first hr hp => State.assertCancel_of_running hr hp first,
    fun s t h => step_keeps_cancel h, fun s t svc ptr hr hp h => step_first_word hr hp h,
    fun s hr hc hp => step_of_takesCancel ⟨hr, hc, ?_⟩⟩
  rcases hp with hp | hp | ⟨svc, hp, hk⟩
  · exact .inl hp
  · exact .inr (.inl hp)
  · exact .inr (.inr ⟨svc, hp, .inl (State.polled_of_no_key hk)⟩)

/-- Settles O45: a terminal run state blocks the step and the ports but reset. -/
theorem terminalStatesAreFinal : Obligations.TerminalStatesAreFinal := by
  intro s hs
  exact ⟨step_of_blocked (.inl hs), State.assertCancel_of_terminal hs,
    fun hp => ⟨State.bootWrite_of_not_reset hp, State.releaseReset_of_not_reset hp⟩⟩

/-- Settles O52: each answer of the host has its step equation. -/
theorem waitInputBlocks : Obligations.WaitInputBlocks := by
  intro s svc hw hc
  refine ⟨fun c rest hk => ?_, fun hk => ?_, fun rest hk => ?_⟩
  · refine ⟨_, step_of_takesByte ⟨hw, State.polled_of_key hk, by simp [hc]⟩, ?_⟩
    rw [completeInput_eq]
    exact ⟨by simp [hk], Regs.get_set_self s.regs .r0 (zext c), rfl⟩
  · rw [step_of_findsNoByte ⟨hw, State.polled_of_no_key (.inl hk), hc⟩]
    simp only [State.afterQuery, hk, List.tail_nil]
    rw [← hk]
  · rw [step_of_findsNoByte ⟨hw, State.polled_of_no_key (.inr ⟨rest, hk⟩), hc⟩]
    simp only [State.afterQuery, hk, List.tail_cons]

/-- Settles O56: in RESET the port is `memWrite`. -/
theorem bootWriteOnlyInReset : Obligations.BootWriteOnlyInReset := by
  intro s a v hm
  refine ⟨fun hp => ?_, fun hp => State.bootWrite_of_not_reset hp a v⟩
  rw [State.bootWrite_of_reset hp]
  exact ⟨rfl, State.memWrite_peek hm a v⟩

/-- Settles O6: `Regs.get_set` for the writes; the names of the fields are evaluated. -/
theorem registerFileIsPlain : Obligations.RegisterFileIsPlain :=
  ⟨Regs.get_set, fun _ => rfl, by decide⟩

/-- Settles O8: each condition is a range of the unsigned value, and the three ranges exclude each
other. -/
theorem setccClassifiesSign : Obligations.SetccClassifiesSign := by
  refine ⟨fun v => ?_, rfl, rfl, rfl⟩
  rw [getLsbD_15_iff, BitVec.toInt_neg_iff, BitVec.toNat_eq]
  rcases Cond.ofWord_cases v with ⟨hv, hc⟩ | ⟨hv, hc⟩ | ⟨hv, hv', hc⟩ <;> simp [hc] <;> omega

end Sys2Proof.Proofs

/-! Memory as the statements of spec/20_memory.md need it: what a poll of 0xFE00 does whole, how many
answers of the host a list of reads uses up, what a store and the fetch after it do, and which words the
reads and the handler of an instruction can change. -/

namespace Sys2Proof.Machine

variable {s t u : State} {i : Instr}

/-! ### The poll of 0xFE00 -/

/-- A read of 0xFE00 changes memory and uses up one answer of the host (R53, R54). -/
theorem State.afterRead_kbsr_eq (s : State) :
    s.afterRead 0xFE00 = { s with
      mem := (s.afterRead 0xFE00).mem, keyboard := s.keyboard.tail } := by
  rw [show s.afterRead 0xFE00 = s.kbsrPoll from if_pos rfl, s.kbsrPoll_eq]

/-- A poll that finds the character `c`: the ready bit in 0xFE00, `c` in 0xFE02 (R54). -/
theorem State.afterRead_kbsr_peek_of_key {c : Byte} (hm : s.mem.wf = true) (hp : s.polled = some c)
    (x : Word) : (s.afterRead 0xFE00).peek x =
      if x = 0xFE00 then 0x8000 else if x = 0xFE02 then zext c else s.peek x := by
  simp only [State.afterRead_peek hm, hp, Config.kbsrAddr, Config.kbdrAddr, true_and]

/-- A poll that finds no character: 0xFE00 is cleared and 0xFE02 keeps its word (R54). -/
theorem State.afterRead_kbsr_peek_of_no_key (hm : s.mem.wf = true) (hp : s.polled = none)
    (x : Word) : (s.afterRead 0xFE00).peek x = if x = 0xFE00 then 0x0000 else s.peek x := by
  simp only [State.afterRead_peek hm, hp, Config.kbsrAddr, true_and, ite_self]

/-! ### Polls counted by the answers used up -/

theorem State.afterRead_keyboard_eq (s : State) (a : Word) :
    (s.afterRead a).keyboard = s.keyboard.drop ([a].count 0xFE00) := by
  by_cases ha : a = 0xFE00
  · rw [ha, s.afterRead_kbsr_eq, List.count_singleton_self, List.drop_one]
  · rw [s.afterRead_of_ne ha, List.count_eq_zero.mpr (by simpa using Ne.symm ha), List.drop_zero]

/-- Reads one after the other use up one answer for each that is at 0xFE00 (R55). -/
theorem State.afterReads_keyboard_eq (as : List Word) (s : State) :
    (as.foldl State.afterRead s).keyboard = s.keyboard.drop (as.count 0xFE00) := by
  induction as generalizing s with
  | nil => rfl
  | cons a as ih =>
    rw [List.foldl_cons, ih, s.afterRead_keyboard_eq, List.drop_drop, ← List.count_append]
    rfl

theorem exec_keyboard_eq (h : exec i s = .next t) :
    t.keyboard = s.keyboard.drop ((readAddrs i s).count 0xFE00) := by
  obtain ⟨g, c, pc, m, r, ph, o, rfl, -⟩ := exec_shape h
  exact State.afterReads_keyboard_eq _ s

/-! ### A store and the fetch after it -/

/-- A handler that stores is its reads and then that store, back in FETCH (R160, R162, R164). -/
theorem exec_of_storeOf {a v : Word} (h : storeOf i s = some (a, v)) :
    exec i s = .next (State.finish (State.memWrite a v ((readAddrs i s).foldl State.afterRead s))) := by
  cases i
  case st | str => cases h; rfl
  case sti sr off9 => cases h; simp [exec, execSti, State.memRead, readAddrs]
  all_goals cases h

theorem State.afterReads_wf (hm : s.mem.wf = true) (as : List Word) :
    (as.foldl State.afterRead s).mem.wf = true :=
  List.foldlRecOn (motive := fun u => u.mem.wf = true) as State.afterRead hm
    fun _ h a _ => State.afterRead_wf h a

/-- After a store the block is ready to fetch and memory holds the stored word (R70). -/
theorem exec_store_ready {a v : Word} (hm : s.mem.wf = true) (hr : s.run = .running)
    (hc : s.cancelPending = false) (h : storeOf i s = some (a, v)) :
    ∃ t, exec i s = .next t ∧ t.readyToFetch ∧ t.peek a = v := by
  refine ⟨_, exec_of_storeOf h, ?_, ?_⟩
  · obtain ⟨m, k, used, e, -, -⟩ := s.afterReads_frame (readAddrs i s)
    rw [e]
    exact ⟨hr, rfl, hc⟩
  · rw [State.finish_peek, State.memWrite_peek (State.afterReads_wf hm _), if_pos rfl]

/-- A block ready to fetch at `a`, anywhere but at 0xFE00, runs the word memory holds there (R53, R82). -/
theorem step_fetching_at {a : Word} (h : s.readyToFetch) (ha : a ≠ 0xFE00) :
    step { s with pc := a } = exec (decode (s.peek a))
      { s with pc := a + 1, phase := .execute (s.peek a) } := by
  rw [step_of_ready (s := { s with pc := a }) h, State.fetch_eq, State.memRead,
    State.afterRead_of_ne _ ha]
  rfl

/-! ### The words an instruction can change -/

/-- Reads change 0xFE00 and 0xFE02 alone, and only when 0xFE00 is among the addresses
read (R53, R54). -/
theorem State.afterReads_peek_ne {as : List Word} {a : Word} (hm : s.mem.wf = true)
    (h : (as.foldl State.afterRead s).peek a ≠ s.peek a) :
    (a = 0xFE00 ∨ a = 0xFE02) ∧ 0xFE00 ∈ as := by
  constructor
  · by_contra ha
    obtain ⟨h0, h2⟩ := not_or.mp ha
    obtain ⟨m, k, used, e, -, hw⟩ := s.afterReads_frame as
    rw [e] at h
    exact h ((hw hm).2 a h0 h2)
  · by_contra has
    rw [s.afterReads_of_not_mem has] at h
    exact h rfl

theorem State.afterRead_peek_ne {p a : Word} (hm : s.mem.wf = true)
    (h : (s.afterRead p).peek a ≠ s.peek a) : (a = 0xFE00 ∨ a = 0xFE02) ∧ p = 0xFE00 := by
  obtain ⟨ha, hp⟩ := State.afterReads_peek_ne (as := [p]) hm h
  exact ⟨ha, (List.mem_singleton.mp hp).symm⟩

/-- A handler changes the word it stores to, and else what its reads change. -/
theorem exec_peek_ne {a : Word} (hm : s.mem.wf = true) (h : exec i s = .next t)
    (hne : t.peek a ≠ s.peek a) :
    (∃ v, storeOf i s = some (a, v)) ∨ ((a = 0xFE00 ∨ a = 0xFE02) ∧ 0xFE00 ∈ readAddrs i s) := by
  obtain ⟨g, c, pc, m, r, ph, o, rfl, -, -, -, hst, -⟩ := exec_shape h
  rcases hst with rfl | ⟨b, v, hs, rfl⟩
  · exact .inr (State.afterReads_peek_ne hm hne)
  · by_cases hab : a = b
    · exact .inl ⟨v, hab ▸ hs⟩
    · have hkeep :=
        (State.memWrite_peek (State.afterReads_wf hm (readAddrs i s)) b v a).trans (if_neg hab)
      exact .inr (State.afterReads_peek_ne hm fun e => hne (hkeep.trans e))

/-- A step changes a word before its handler runs only when it fetches at 0xFE00. -/
theorem State.executes_peek_ne {a : Word} (hm : s.mem.wf = true) (hx : s.executes i u)
    (hne : u.peek a ≠ s.peek a) : (a = 0xFE00 ∨ a = 0xFE02) ∧ s.readsKbsr := by
  rcases hx with ⟨hr, -, rfl⟩ | ⟨-, w, -, -, rfl⟩
  · obtain ⟨ha, hpc⟩ := State.afterRead_peek_ne (p := s.pc) hm hne
    exact ⟨ha, .inl ⟨hr, hpc⟩⟩
  · exact absurd rfl hne

@[simp] theorem walkWord_peek (svc : StringService) (ptr w : Word) (s : State) (a : Word) :
    (walkWord svc ptr w s).peek a = s.peek a := by rw [walkWord_eq svc ptr w s]; rfl

end Sys2Proof.Machine

namespace Sys2Proof.Proofs
open Sys2Proof.Machine

/-- Settles O22: no other address polls; at 0xFE00 the two answers of the poll have their laws. -/
theorem memReadPollsKbsr : Obligations.MemReadPollsKbsr := by
  intro s hm
  refine ⟨fun a ha => ?_, fun c rest hk => ?_, fun hk => ?_⟩
  · rw [State.memRead, s.afterRead_of_ne ha]
  · have hpeek := State.afterRead_kbsr_peek_of_key hm (State.polled_of_key hk)
    refine ⟨s.afterRead 0xFE00, ?_, ?_, hpeek⟩
    · rw [State.memRead, hpeek, if_pos rfl]
    · have h := s.afterRead_kbsr_eq
      rwa [hk] at h
  · have hpeek := State.afterRead_kbsr_peek_of_no_key hm (State.polled_of_no_key hk)
    refine ⟨s.afterRead 0xFE00, ?_, s.afterRead_kbsr_eq, hpeek⟩
    rw [State.memRead, hpeek, if_pos rfl]

/-- Settles O23: the fetch and a walk make one read each, an instruction those of `readAddrs`. -/
theorem pollsCountReadsOfKbsr : Obligations.PollsCountReadsOfKbsr := by
  refine ⟨fun s => s.afterRead_keyboard_eq s.pc, fun i s t h => exec_keyboard_eq h,
    fun svc ptr s t hw h => ?_⟩
  cases (step_of_walks hw).symm.trans h
  rw [walkWord_keyboard]
  exact s.afterRead_keyboard_eq ptr

/-- Settles O31: the store leaves the block ready to fetch, and `v` is what it fetches at `a`. -/
theorem storeSeenByNextFetch : Obligations.StoreSeenByNextFetch := by
  intro i s a v hm hr hc hst ha
  obtain ⟨t, he, hready, rfl⟩ := exec_store_ready hm hr hc hst
  exact ⟨t, he, step_fetching_at hready ha⟩

/-- Settles O50, by the six cases of a step: the handler's own store or a read of 0xFE00. -/
theorem memoryWriters : Obligations.MemoryWriters := by
  intro s t a hm h hne
  rcases step_cases h with ⟨rfl, -⟩ | ⟨rfl, -, -⟩ | ⟨i, u, hx, he⟩ | ⟨svc, c, -, -, rfl⟩ |
    ⟨svc, -, -, rfl⟩ | ⟨svc, ptr, hw, rfl⟩
  · exact absurd rfl hne
  · exact absurd rfl hne
  · by_cases hu : u.peek a = s.peek a
    · rw [← hu] at hne
      rcases exec_peek_ne (State.executes_wf hx hm) he hne with ⟨v, hst⟩ | ⟨ha, hread⟩
      · exact .inl ⟨i, u, v, hx, hst⟩
      · exact .inr ⟨ha, .inr (.inl ⟨i, u, hx, hread⟩)⟩
    · exact .inr (State.executes_peek_ne hm hx hu)
  · rw [completeInput_eq] at hne; exact absurd rfl hne
  · exact absurd rfl hne
  · rw [walkWord_peek] at hne
    obtain ⟨ha, rfl⟩ := State.afterRead_peek_ne hm hne
    exact .inr ⟨ha, .inr (.inr ⟨svc, hw⟩)⟩

/-- Settles O21: `Memory.write` changes one word of canonical memory, and a store writes no other field. -/
theorem memWriteIsPlain : Obligations.MemWriteIsPlain :=
  fun _ a v hm => ⟨State.memWrite_peek hm a v, rfl⟩

end Sys2Proof.Proofs

/-! The decoder and the encoder as each other's inverse. Decoding an encoded instruction reads each field
where the encoder placed it; encoding a decoded word joins the fields read, each to the field above it,
until they are the whole word. -/

namespace Sys2Proof

/-! ### The opcode of an instruction -/

/-- The row of the opcode map (R94) an instruction belongs to. -/
def Instr.op : Instr → Op
  | .br _ _ _ _ => .br
  | .add _ _ _ _ => .add
  | .addImm _ _ _ => .add
  | .ld _ _ => .ld
  | .st _ _ => .st
  | .jsr _ => .jsr
  | .jsrr _ _ _ => .jsr
  | .and _ _ _ _ => .and
  | .andImm _ _ _ => .and
  | .ldr _ _ _ => .ldr
  | .str _ _ _ => .str
  | .illegal1000 _ => .ill8
  | .not _ _ _ => .not
  | .ldi _ _ => .ldi
  | .sti _ _ => .sti
  | .jmp _ _ _ => .jmp
  | .illegal1101 _ => .illD
  | .lea _ _ => .lea
  | .trap _ _ => .trap

/-- Bits 15:12 of an encoded instruction are its opcode: every other field stands below them. -/
theorem field_encode_op (i : Instr) : field (encode i) 12 4 = i.op.code := by
  cases i <;>
    simp (disch := decide) only [encode, Instr.op, field_or, field_place, field_place_other,
      BitVec.or_zero]

/-! ### Encoding, then decoding -/

/-- The opcode selects the row the instruction is of, and then every operand and every unused bit is read
from where it was placed. -/
@[simp] theorem decode_encode (i : Instr) : decode (encode i) = i := by
  have hop : Op.ofCode (field (encode i) 12 4) = i.op := by rw [field_encode_op, Op.ofCode_code]
  unfold decode
  rw [hop]
  cases i <;>
    simp [Instr.op, encode, regField, bit_eq_field, field_or, field_place, field_place_other]

/-! ### Decoding, then encoding -/

/-- A field and the one above it, put back where they were read, are one wider field put back. -/
theorem place_field_join (w : Word) {lo n hi : Nat} (m : Nat) (h : hi = lo + n) :
    place hi (field w hi m) ||| place lo (field w lo n) = place lo (field w lo (n + m)) := by
  subst h
  refine BitVec.eq_of_getLsbD_eq fun k hk => ?_
  simp only [BitVec.getLsbD_or, getLsbD_place, getLsbD_field]
  by_cases hlo : k < lo
  · simp [hlo, show k < lo + n by omega]
  · rw [show lo + (k - lo) = k by omega]
    by_cases hn : k < lo + n
    · simp [hk, hlo, hn, show k - lo < n by omega, show k - lo < n + m by omega]
    · rw [show lo + n + (k - (lo + n)) = k by omega]
      simp [hk, hlo, hn, show ¬ k - lo < n by omega,
        show k - (lo + n) < m ↔ k - lo < n + m by omega]

/-- All sixteen bits of a word, put back, are the word. -/
theorem place_field_all (w : Word) {n : Nat} (h : n = 16) : place 0 (field w 0 n) = w := by
  subst h
  simp [place, field]

/-- A register field names a register whose number is the field (R21). -/
@[simp] theorem toBits_regField (w : Word) (lo : Nat) : (regField w lo).toBits = field w lo 3 :=
  Reg.toBits_ofBits _

/-- A bit, as a field of width one. -/
theorem ofBool_bit (w : Word) (k : Nat) : BitVec.ofBool (bit w k) = field w k 1 := by
  refine BitVec.eq_of_getLsbD_eq fun j hj => ?_
  obtain rfl : j = 0 := by omega
  simp [bit_eq_field]

/-- Either value of a mode flag, as the encoder writes it, is the field of width one it was read from. -/
theorem bit_cases (w : Word) (k : Nat) :
    (bit w k = false ∧ 0#1 = field w k 1) ∨ (bit w k = true ∧ 1#1 = field w k 1) := by
  rw [← ofBool_bit]
  cases bit w k <;> simp

/-- The fields an instruction is decoded to are, from the opcode down to bit 0, the whole word. -/
@[simp] theorem encode_decode (w : Word) : encode (decode w) = w := by
  have hop : (Op.ofCode (field w 12 4)).code = field w 12 4 := Op.code_ofCode _
  unfold decode
  cases ho : Op.ofCode (field w 12 4) <;> rw [ho] at hop
  case add | and =>
    rcases bit_cases w 5 with ⟨hmode, hflag⟩ | ⟨hmode, hflag⟩ <;>
      simp (disch := rfl) [encode, hop, hmode, hflag, place_field_join, place_field_all]
  case jsr =>
    rcases bit_cases w 11 with ⟨hmode, hflag⟩ | ⟨hmode, hflag⟩ <;>
      simp (disch := rfl) [encode, hop, hmode, hflag, place_field_join, place_field_all]
  all_goals
    simp (disch := rfl) [encode, hop, ofBool_bit, place_field_join, place_field_all]

/-! ### The illegal words -/

/-- R95, said on the bits of the encoded instruction. -/
theorem Instr.wellFormed_eq_false_iff (i : Instr) : i.wellFormed = false ↔
    (field (encode i) 12 4 = 0b1000#4 ∨ field (encode i) 12 4 = 0b1101#4) := by
  rw [field_encode_op]
  cases i <;> simp [wellFormed, op, Op.code]

/-- A word is illegal exactly when its opcode is 0b1000 or 0b1101 (R95). -/
theorem wellFormed_decode_eq_false_iff (w : Word) : (decode w).wellFormed = false ↔
    (w.extractLsb' 12 4 = 0b1000#4 ∨ w.extractLsb' 12 4 = 0b1101#4) := by
  have h := Instr.wellFormed_eq_false_iff (decode w)
  rwa [encode_decode] at h

end Sys2Proof

/-! What the handlers of the illegal opcodes and of TRAP do with the fetched word. -/

namespace Sys2Proof.Machine

/-- An illegal opcode stops the block with its own word in the record (R210). -/
theorem exec_of_not_wellFormed {i : Instr} (h : i.wellFormed = false) (s : State) :
    exec i s = .next { s with run := .fatal ⟨.illegalOpcode, s.pc - 1, encode i⟩ } := by
  cases i
  case illegal1000 | illegal1101 => rfl
  all_goals cases h

/-- A service does not look at the word that called it (R89, R182). -/
theorem exec_trap_of_service {v : Byte} (h : serviceOf v ≠ none) (x y : BitVec 4) (s : State) :
    exec (.trap x v) s = exec (.trap y v) s := by
  simp only [exec, execTrap, dispatch]
  split
  case h_7 hnone => exact absurd hnone h
  all_goals rfl

/-- With no service the link is written and the record holds the whole word (R196, R211). -/
theorem exec_trap_of_no_service {v : Byte} (h : serviceOf v = none) (x : BitVec 4) (s : State) :
    exec (.trap x v) s =
      .next { s.link with run := .fatal ⟨.unknownTrap, s.pc - 1, encode (.trap x v)⟩ } := by
  simp only [exec, execTrap, dispatch, h]
  rfl

end Sys2Proof.Machine

namespace Sys2Proof.Proofs
open Sys2Proof.Machine

/-- Settles O1, by `decode_encode`: each field is read where it was placed. -/
theorem decodeEncodeRoundTrip : Obligations.DecodeEncodeRoundTrip := decode_encode

/-- Settles O2, by `encode_decode`: the fields read join to the whole word. -/
theorem encodeDecodeRoundTrip : Obligations.EncodeDecodeRoundTrip := encode_decode

/-- Settles O3: the illegal instructions are those of two opcodes, and the word in the record, the
encoding of what was decoded, is the word itself. -/
theorem illegalOpcodesAreFatal : Obligations.IllegalOpcodesAreFatal := by
  refine ⟨wellFormed_decode_eq_false_iff, fun w s hw => ?_⟩
  rw [exec_of_not_wellFormed ((wellFormed_decode_eq_false_iff w).mpr hw), encode_decode]

/-- Settles O4: nineteen closed words, evaluated. -/
theorem specWordsDecode : Obligations.SpecWordsDecode := by
  unfold Obligations.SpecWordsDecode
  decide

/-- Settles O5: only the record of an undefined vector looks at unused bits. -/
theorem unusedBitsIgnored : Obligations.UnusedBitsIgnored := by
  refine ⟨fun w h8 hD => ?_, fun s => ⟨fun _ _ _ _ _ => rfl, fun _ _ _ _ _ => rfl,
    fun _ _ _ _ => rfl, fun _ _ _ _ _ => rfl, fun _ _ _ _ _ => rfl, fun x u v hx => ?_,
    fun x u v hx => ?_⟩⟩
  · rw [← Bool.not_eq_false, wellFormed_decode_eq_false_iff]
    exact not_or.mpr ⟨h8, hD⟩
  · refine exec_trap_of_service (fun hnone => ?_) u v s
    have := (serviceOf_eq_none_iff x).mp hnone
    omega
  · have hnone := (serviceOf_eq_none_iff x).mpr hx
    exact ⟨_, exec_trap_of_no_service hnone u s, exec_trap_of_no_service hnone v s⟩

/-- Settles O43: `step_of_ready`, with the fetch written out. -/
theorem stepRunsFetchedInstruction : Obligations.StepRunsFetchedInstruction := by
  intro s h
  rw [step_of_ready h, s.fetch_eq]
  rfl

end Sys2Proof.Proofs

/-! The operate instructions: the decoder's rows for ADD, AND and NOT, and the whole next state of a
handler that writes one register and the flags. -/

namespace Sys2Proof

variable {w : Word}

/-- The opcode field, given as a number of the opcode map (R94), selects that row. -/
theorem Op.ofCode_field {o : Op} (h : w.extractLsb' 12 4 = o.code) :
    Op.ofCode (field w 12 4) = o := by
  rw [field, h, Op.ofCode_code]

theorem decode_add (h : w.extractLsb' 12 4 = Op.add.code) :
    decode w = if bit w 5 then .addImm (regField w 9) (regField w 6) (field w 0 5)
      else .add (regField w 9) (regField w 6) (field w 3 2) (regField w 0) := by
  rw [decode, Op.ofCode_field h]

theorem decode_and (h : w.extractLsb' 12 4 = Op.and.code) :
    decode w = if bit w 5 then .andImm (regField w 9) (regField w 6) (field w 0 5)
      else .and (regField w 9) (regField w 6) (field w 3 2) (regField w 0) := by
  rw [decode, Op.ofCode_field h]

theorem decode_not (h : w.extractLsb' 12 4 = Op.not.code) :
    decode w = .not (regField w 9) (regField w 6) (field w 0 6) := by
  rw [decode, Op.ofCode_field h]

end Sys2Proof

namespace Sys2Proof.Machine

/-- An instruction that ends by writing its result: the register, COND by the same word, and FETCH next;
nothing else changes (R29, R35). -/
theorem State.finish_setRegCC (dr : Reg) (v : Word) (s : State) :
    State.finish (State.setRegCC dr v s) =
      { s with regs := s.regs.set dr v, cond := Cond.ofWord v, phase := .fetch } := by
  rw [State.setRegCC_eq]; rfl

theorem exec_add (dr sr1 : Reg) (u : BitVec 2) (sr2 : Reg) (s : State) :
    exec (.add dr sr1 u sr2) s =
      .next (State.finish (State.setRegCC dr (s.reg sr1 + s.reg sr2) s)) := rfl

theorem exec_addImm (dr sr1 : Reg) (imm5 : BitVec 5) (s : State) :
    exec (.addImm dr sr1 imm5) s =
      .next (State.finish (State.setRegCC dr (s.reg sr1 + sext imm5) s)) := rfl

theorem exec_and (dr sr1 : Reg) (u : BitVec 2) (sr2 : Reg) (s : State) :
    exec (.and dr sr1 u sr2) s =
      .next (State.finish (State.setRegCC dr (s.reg sr1 &&& s.reg sr2) s)) := rfl

theorem exec_andImm (dr sr1 : Reg) (imm5 : BitVec 5) (s : State) :
    exec (.andImm dr sr1 imm5) s =
      .next (State.finish (State.setRegCC dr (s.reg sr1 &&& sext imm5) s)) := rfl

/-- The handler's exclusive or with all ones is the complement (R116). -/
theorem exec_not (dr sr : Reg) (u : BitVec 6) (s : State) :
    exec (.not dr sr u) s = .next (State.finish (State.setRegCC dr (~~~ s.reg sr) s)) := by
  rw [← BitVec.xor_allOnes]; rfl

end Sys2Proof.Machine

namespace Sys2Proof.Proofs
open Sys2Proof.Machine

/-- Settles O14: DR reads back the sum of two words, which is the sum mod 65536 in either reading; the
immediate form writes the same word when SR2 holds the extended immediate. -/
theorem addIsModularSum : Obligations.AddIsModularSum := by
  intro dr sr1 u sr2 imm5 s
  have hdr : (State.finish (State.setRegCC dr (s.reg sr1 + s.reg sr2) s)).reg dr =
      s.reg sr1 + s.reg sr2 := by
    rw [State.finish_setRegCC]; exact Regs.get_set_self ..
  refine ⟨_, exec_add dr sr1 u sr2 s, ?_, ?_, fun x hx => ?_, ?_, fun hsext => ?_⟩
  · rw [hdr, BitVec.toNat_add]
  · rw [hdr, BitVec.toInt_add]
  · rw [State.finish_setRegCC]
    exact (Regs.get_set s.regs dr x _).trans (if_neg hx)
  · rw [hdr, State.finish_setRegCC]
  · rw [hsext, exec_addImm]

/-- Settles O9: the decoder's row of ADD with bit 5 clear, and `exec_add`. -/
theorem addRegisterForm : Obligations.AddRegisterForm := by
  refine ⟨fun w hop hmode => ?_, fun dr sr1 u sr2 s => ?_⟩
  · exact (decode_add hop).trans (if_neg (Bool.eq_false_iff.mp hmode))
  · rw [exec_add, State.finish_setRegCC]

/-- Settles O10: the decoder's row of ADD with bit 5 set, and `exec_addImm`. -/
theorem addImmediateForm : Obligations.AddImmediateForm := by
  refine ⟨fun w hop hmode => ?_, fun dr sr1 imm5 s => ?_⟩
  · exact (decode_add hop).trans (if_pos hmode)
  · rw [exec_addImm, State.finish_setRegCC]

/-- Settles O11: the decoder's row of AND with bit 5 clear, and `exec_and`. -/
theorem andRegisterForm : Obligations.AndRegisterForm := by
  refine ⟨fun w hop hmode => ?_, fun dr sr1 u sr2 s => ?_⟩
  · exact (decode_and hop).trans (if_neg (Bool.eq_false_iff.mp hmode))
  · rw [exec_and, State.finish_setRegCC]

/-- Settles O12: the decoder's row of AND with bit 5 set, and `exec_andImm`. -/
theorem andImmediateForm : Obligations.AndImmediateForm := by
  refine ⟨fun w hop hmode => ?_, fun dr sr1 imm5 s => ?_⟩
  · exact (decode_and hop).trans (if_pos hmode)
  · rw [exec_andImm, State.finish_setRegCC]

/-- Settles O13: the decoder's row of NOT, and `exec_not`. -/
theorem notComplements : Obligations.NotComplements := by
  refine ⟨fun w hop => decode_not hop, fun dr sr u s => ?_⟩
  rw [exec_not, State.finish_setRegCC]

end Sys2Proof.Proofs

/-! Control transfer: the decoder's rows for BR, JMP and the two calls, the whole next state of each, and
the test of BR as a question about COND. -/

namespace Sys2Proof

variable {w : Word}

theorem decode_br (h : w.extractLsb' 12 4 = Op.br.code) :
    decode w = .br (bit w 11) (bit w 10) (bit w 9) (field w 0 9) := by
  rw [decode, Op.ofCode_field h]

theorem decode_jmp (h : w.extractLsb' 12 4 = Op.jmp.code) :
    decode w = .jmp (field w 9 3) (regField w 6) (field w 0 6) := by
  rw [decode, Op.ofCode_field h]

theorem decode_jsr (h : w.extractLsb' 12 4 = Op.jsr.code) :
    decode w = if bit w 11 then .jsr (field w 0 11)
      else .jsrr (field w 9 2) (regField w 6) (field w 0 6) := by
  rw [decode, Op.ofCode_field h]

end Sys2Proof

namespace Sys2Proof.Machine

/-- A BR ends in FETCH, taken or not, and changes PC at most (R130). -/
theorem exec_br (n z p : Bool) (off9 : BitVec 9) (s : State) :
    exec (.br n z p off9) s = .next { s with
      pc := if brTaken n z p s.cond then s.pc + sext off9 else s.pc, phase := .fetch } := by
  simp only [exec, execBr]
  split <;> rfl

theorem exec_jmp (u : BitVec 3) (b : Reg) (v : BitVec 6) (s : State) :
    exec (.jmp u b v) s = .next { s with pc := s.reg b, phase := .fetch } := rfl

theorem exec_jsr (off11 : BitVec 11) (s : State) :
    exec (.jsr off11) s = .next { s with
      regs := s.regs.set .r7 s.pc, pc := s.pc + sext off11, phase := .fetch } := rfl

/-- The base is read from the linked registers, where R7 is the link (R137). -/
theorem exec_jsrr (u : BitVec 2) (b : Reg) (v : BitVec 6) (s : State) :
    exec (.jsrr u b v) s = .next { s with
      regs := s.regs.set .r7 s.pc, pc := if b = .r7 then s.pc else s.reg b, phase := .fetch } := by
  rw [← State.link_reg]; rfl

/-- BR's test, with `nzp` and the conjunction written as R130 writes them. -/
theorem brTaken_iff (n z p : Bool) (c : Cond) : brTaken n z p c = true ↔
    ((BitVec.ofBool n ++ BitVec.ofBool z ++ BitVec.ofBool p : BitVec 3) &&& c.bits) ≠ 0b000 :=
  bne_iff_ne

/-! COND holds one bit, so the test of a single bit asks whether COND is that one (R28, R131). -/

theorem brTaken_n_iff (c : Cond) : brTaken true false false c = true ↔ c = .n := by
  cases c <;> decide

theorem brTaken_z_iff (c : Cond) : brTaken false true false c = true ↔ c = .z := by
  cases c <;> decide

theorem brTaken_p_iff (c : Cond) : brTaken false false true c = true ↔ c = .p := by
  cases c <;> decide

/-- An instruction with a call's opcode, in either form, leaves in R7 the PC it started with (R138). -/
theorem exec_call_links {w : Word} (h : w.extractLsb' 12 4 = Op.jsr.code) (s : State) :
    ∃ t, exec (decode w) s = .next t ∧ t.reg .r7 = s.pc := by
  rw [decode_jsr h]
  split
  · exact ⟨_, exec_jsr _ s, Regs.get_set_self s.regs .r7 s.pc⟩
  · exact ⟨_, exec_jsrr _ _ _ s, Regs.get_set_self s.regs .r7 s.pc⟩

end Sys2Proof.Machine

namespace Sys2Proof.Proofs
open Sys2Proof.Machine

/-- Settles O20: either form links the PC of the state after the fetch, which is the old PC plus 1. -/
theorem callsLinkNextAddress : Obligations.CallsLinkNextAddress := by
  intro s hready hop
  obtain ⟨t, hexec, hlink⟩ := exec_call_links hop s.fetch
  exact ⟨t, (step_of_ready hready).trans hexec, hlink.trans s.fetch_pc⟩

/-- Settles O15: the decoder's row of BR, and `exec_br` with its test written out. -/
theorem branchTestsCond : Obligations.BranchTestsCond := by
  refine ⟨fun w hop => decode_br hop, fun n z p off9 s => ?_⟩
  simp only [exec_br, brTaken_iff]

/-- Settles O16: `exec_br` with the test of one bit. -/
theorem branchOnOneBit : Obligations.BranchOnOneBit := by
  refine fun off9 s => ⟨?_, ?_, ?_⟩
  · simp only [exec_br, brTaken_n_iff]
  · simp only [exec_br, brTaken_z_iff]
  · simp only [exec_br, brTaken_p_iff]

/-- Settles O17: the decoder's row of JMP, the word of RET evaluated, and `exec_jmp`. -/
theorem jumpThroughRegister : Obligations.JumpThroughRegister :=
  ⟨fun _ hop => decode_jmp hop, by decide, exec_jmp⟩

/-- Settles O18: the decoder's row of the calls with bit 11 set, and `exec_jsr`. -/
theorem jsrLinksAndJumps : Obligations.JsrLinksAndJumps :=
  ⟨fun _ hop hmode => (decode_jsr hop).trans (if_pos hmode), exec_jsr⟩

/-- Settles O19: the decoder's row of the calls with bit 11 clear, and `exec_jsrr`. -/
theorem jsrrLinksBeforeBase : Obligations.JsrrLinksBeforeBase :=
  ⟨fun _ hop hmode => (decode_jsr hop).trans (if_neg (Bool.eq_false_iff.mp hmode)), exec_jsrr⟩

end Sys2Proof.Proofs

/-! Loads, stores and LEA: the decoder's rows for the seven instructions, the word a load writes to its
register, and the one word a store changes after the reads of its handler. -/

namespace Sys2Proof

variable {w : Word}

theorem decode_ld (h : w.extractLsb' 12 4 = Op.ld.code) :
    decode w = .ld (regField w 9) (field w 0 9) := by
  rw [decode, Op.ofCode_field h]

theorem decode_ldi (h : w.extractLsb' 12 4 = Op.ldi.code) :
    decode w = .ldi (regField w 9) (field w 0 9) := by
  rw [decode, Op.ofCode_field h]

theorem decode_ldr (h : w.extractLsb' 12 4 = Op.ldr.code) :
    decode w = .ldr (regField w 9) (regField w 6) (field w 0 6) := by
  rw [decode, Op.ofCode_field h]

theorem decode_lea (h : w.extractLsb' 12 4 = Op.lea.code) :
    decode w = .lea (regField w 9) (field w 0 9) := by
  rw [decode, Op.ofCode_field h]

theorem decode_st (h : w.extractLsb' 12 4 = Op.st.code) :
    decode w = .st (regField w 9) (field w 0 9) := by
  rw [decode, Op.ofCode_field h]

theorem decode_sti (h : w.extractLsb' 12 4 = Op.sti.code) :
    decode w = .sti (regField w 9) (field w 0 9) := by
  rw [decode, Op.ofCode_field h]

theorem decode_str (h : w.extractLsb' 12 4 = Op.str.code) :
    decode w = .str (regField w 9) (regField w 6) (field w 0 6) := by
  rw [decode, Op.ofCode_field h]

end Sys2Proof

namespace Sys2Proof.Machine

@[simp] theorem State.memRead_regs (a : Word) (s : State) : (State.memRead a s).2.regs = s.regs :=
  s.afterRead_regs a

/-! ### The handlers that write a register -/

theorem exec_ld (dr : Reg) (off9 : BitVec 9) (s : State) :
    exec (.ld dr off9) s = .next (State.finish (State.setRegCC dr
      (State.memRead (s.pc + sext off9) s).1 (State.memRead (s.pc + sext off9) s).2)) := rfl

/-- The second read starts from the state the pointer read leaves (R152). -/
theorem exec_ldi (dr : Reg) (off9 : BitVec 9) (s : State) :
    exec (.ldi dr off9) s =
      let r := State.memRead (s.pc + sext off9) s
      .next (State.finish (State.setRegCC dr (State.memRead r.1 r.2).1 (State.memRead r.1 r.2).2)) := rfl

theorem exec_ldr (dr b : Reg) (off6 : BitVec 6) (s : State) :
    exec (.ldr dr b off6) s = .next (State.finish (State.setRegCC dr
      (State.memRead (s.reg b + sext off6) s).1 (State.memRead (s.reg b + sext off6) s).2)) := rfl

theorem exec_lea (dr : Reg) (off9 : BitVec 9) (s : State) :
    exec (.lea dr off9) s = .next (State.finish (State.setRegCC dr (s.pc + sext off9) s)) := rfl

/-! ### The handlers that store -/

/-- A handler that stores, its reads having led to `u`: back in FETCH, the word at its address is the word
stored, and all else is as in `u` (R160, R162, R164). -/
theorem exec_store_next {i : Instr} {s u : State} {a v : Word} (hm : s.mem.wf = true)
    (h : storeOf i s = some (a, v)) (hu : (readAddrs i s).foldl State.afterRead s = u) :
    ∃ t, exec i s = .next t ∧ t = { u with mem := t.mem, phase := .fetch } ∧
      ∀ x, t.peek x = if x = a then v else u.peek x := by
  subst hu
  exact ⟨_, exec_of_storeOf h, rfl, State.memWrite_peek (State.afterReads_wf hm _) a v⟩

end Sys2Proof.Machine

namespace Sys2Proof.Proofs
open Sys2Proof.Machine

/-- Settles O24: the decoder's row of LD, and `exec_ld`; the read leaves the registers as they were. -/
theorem loadPcRelative : Obligations.LoadPcRelative := by
  refine ⟨fun w hop => decode_ld hop, fun dr off9 s => ?_⟩
  rw [exec_ld, State.finish_setRegCC, State.memRead_regs]

/-- Settles O25: the decoder's row of LDI, and `exec_ldi`; neither read changes a register. -/
theorem loadIndirect : Obligations.LoadIndirect := by
  refine ⟨fun w hop => decode_ldi hop, fun dr off9 s => ?_⟩
  simp only [exec_ldi, State.finish_setRegCC, State.memRead_regs]

/-- Settles O26: the decoder's row of LDR, and `exec_ldr`, whose address holds the old base. -/
theorem loadBaseOffset : Obligations.LoadBaseOffset := by
  refine ⟨fun w hop => decode_ldr hop, fun dr b off6 s => ?_⟩
  rw [exec_ldr, State.finish_setRegCC, State.memRead_regs]

/-- Settles O27: the decoder's row of LEA, and `exec_lea`. -/
theorem loadEffectiveAddress : Obligations.LoadEffectiveAddress := by
  refine ⟨fun w hop => decode_lea hop, fun dr off9 s => ?_⟩
  rw [exec_lea, State.finish_setRegCC]

/-- Settles O28: the decoder's row of ST; the handler reads nothing and stores once. -/
theorem storePcRelative : Obligations.StorePcRelative :=
  ⟨fun _ hop => decode_st hop, fun _ _ _ hm => exec_store_next hm rfl rfl⟩

/-- Settles O29: the decoder's row of STI; the handler reads its pointer and stores once. -/
theorem storeIndirect : Obligations.StoreIndirect :=
  ⟨fun _ hop => decode_sti hop, fun _ _ _ hm => exec_store_next hm rfl rfl⟩

/-- Settles O30: the decoder's row of STR; the handler reads nothing and stores once. -/
theorem storeBaseOffset : Obligations.StoreBaseOffset :=
  ⟨fun _ hop => decode_str hop, fun _ _ _ _ hm => exec_store_next hm rfl rfl⟩

end Sys2Proof.Proofs

/-! TRAP and its services: the decoder's row, the whole next state of each vector's handler, and the walks
of PUTS and PUTSP word by word and as a whole. -/

namespace Sys2Proof

theorem decode_trap {w : Word} (h : w.extractLsb' 12 4 = Op.trap.code) :
    decode w = .trap (field w 8 4) (field w 0 8) := by
  rw [decode, Op.ofCode_field h]

end Sys2Proof

namespace Sys2Proof.Machine

variable {s : State} {svc : StringService} {ptr : Word}

/-! ### The handler of each vector -/

theorem exec_trap (u : BitVec 4) (v : Byte) (s : State) :
    exec (.trap u v) s = .next (dispatch v (encode (.trap u v)) s.link) := rfl

theorem exec_trap_getc (u : BitVec 4) (s : State) : exec (.trap u 0x20) s = .next { s with
    regs := s.regs.set .r7 s.pc, phase := .waitInput .getc } := rfl

/-- The character is read after the link, which leaves R0 as it was (R187). -/
theorem exec_trap_out (u : BitVec 4) (s : State) : exec (.trap u 0x21) s = .next { s with
    regs := s.regs.set .r7 s.pc
    console := s.console ++ [.put (lowByte (s.reg .r0)), .flush]
    phase := .fetch } := by
  rw [List.append_cons]; rfl

/-- The walk starts at R0, read after the link, which leaves it as it was (R188). -/
theorem exec_trap_puts (u : BitVec 4) (s : State) : exec (.trap u 0x22) s = .next { s with
    regs := s.regs.set .r7 s.pc, phase := .stringOut .puts (s.reg .r0) false } := rfl

theorem exec_trap_in (u : BitVec 4) (s : State) : exec (.trap u 0x23) s = .next { s with
    regs := s.regs.set .r7 s.pc
    console := s.console ++ s.params.inPrompt.map ConsoleEvent.put
    phase := .waitInput .input } := rfl

theorem exec_trap_putsp (u : BitVec 4) (s : State) : exec (.trap u 0x24) s = .next { s with
    regs := s.regs.set .r7 s.pc, phase := .stringOut .putsp (s.reg .r0) false } := rfl

theorem exec_trap_halt (u : BitVec 4) (s : State) : exec (.trap u 0x25) s = .next { s with
    regs := s.regs.set .r7 s.pc
    console := s.console ++ s.params.haltNotice.map ConsoleEvent.put ++ [.flush]
    run := .halted } := rfl

/-- No service looks at memory before its first word, and none changes it (R181). -/
theorem dispatch_withMem (v : Byte) (instr : Word) (m : Memory) (s : State) :
    dispatch v instr { s with mem := m } = { dispatch v instr s with mem := m } := by
  unfold dispatch
  split <;> rfl

/-! ### The byte of GETC and IN -/

/-- A byte has no sign as a word, so COND is Z for 0 and P for any other (R186, R190). -/
theorem Cond.ofWord_zext (c : Byte) : Cond.ofWord (zext c) = if c = 0x00 then .z else .p := by
  revert c; decide

/-- With a byte first in the host's input and no cancel pending, a waiting service takes it (R42). -/
theorem step_waits_key {w : WaitService} {c : Byte} {rest : List KeyEvent} (hw : s.waits w)
    (hk : s.keyboard = .key c :: rest) (hc : s.cancelPending = false) :
    step s = .next (completeInput w c { s with keyboard := rest }) := by
  rw [step_of_takesByte ⟨hw, State.polled_of_key hk, by rw [hc, Bool.false_and]⟩, State.afterQuery, hk]
  rfl

/-! ### One word of a walk -/

theorem putsWord_eq (ptr w : Word) (s : State) : putsWord ptr w s =
    if w = 0x0000 then { s with console := s.console ++ [.flush], phase := .fetch }
    else { s with
      console := s.console ++ [.put (lowByte w)], phase := .stringOut .puts (ptr + 1) true } := rfl

theorem putspWord_eq (ptr w : Word) (s : State) : putspWord ptr w s =
    if lowByte w = 0x00 then { s with console := s.console ++ [.flush], phase := .fetch }
    else if highByte w = 0x00 then
      { s with console := s.console ++ [.put (lowByte w), .flush], phase := .fetch }
    else { s with
      console := s.console ++ [.put (lowByte w), .put (highByte w)]
      phase := .stringOut .putsp (ptr + 1) true } := by
  have happ : ∀ e, s.console ++ [.put (lowByte w), e] = s.console ++ [.put (lowByte w)] ++ [e] :=
    fun e => List.append_cons s.console (.put (lowByte w)) [e]
  simp only [happ]
  rfl

/-- Does the word `w` end a walk of the service (R188, R192)? -/
def StringService.endsAt : StringService → Word → Bool
  | .puts, w => w == 0x0000
  | .putsp, w => lowByte w == 0x00 || highByte w == 0x00

theorem walkWord_phase (svc : StringService) (ptr w : Word) (s : State) :
    (walkWord svc ptr w s).phase =
      if svc.endsAt w then .fetch else .stringOut svc (ptr + 1) true := by
  cases svc with
  | puts =>
    simp only [walkWord, putsWord_eq, StringService.endsAt, beq_iff_eq]
    split <;> rfl
  | putsp =>
    simp only [walkWord, putspWord_eq, StringService.endsAt, Bool.or_eq_true, beq_iff_eq]
    by_cases hlo : lowByte w = 0x00
    · rw [if_pos hlo, if_pos (.inl hlo)]
    · by_cases hhi : highByte w = 0x00
      · rw [if_neg hlo, if_pos hhi, if_pos (.inr hhi)]
      · rw [if_neg hlo, if_neg hhi, if_neg (not_or.mpr ⟨hlo, hhi⟩)]

@[simp] theorem walkWord_mem (svc : StringService) (ptr w : Word) (s : State) :
    (walkWord svc ptr w s).mem = s.mem := by rw [walkWord_eq svc ptr w s]

/-- The state after the step that reads and handles the word of a walk at `ptr`. -/
def State.walked (svc : StringService) (ptr : Word) (s : State) : State :=
  walkWord svc ptr (State.memRead ptr s).1 (State.memRead ptr s).2

theorem step_eq_walked (h : s.walks svc ptr) : step s = .next (s.walked svc ptr) := step_of_walks h

@[simp] theorem State.walked_regs (svc : StringService) (ptr : Word) (s : State) :
    (s.walked svc ptr).regs = s.regs := by simp [State.walked]
@[simp] theorem State.walked_pc (svc : StringService) (ptr : Word) (s : State) :
    (s.walked svc ptr).pc = s.pc := by simp [State.walked, State.memRead]
@[simp] theorem State.walked_run (svc : StringService) (ptr : Word) (s : State) :
    (s.walked svc ptr).run = s.run := by simp [State.walked, State.memRead]
@[simp] theorem State.walked_cancelPending (svc : StringService) (ptr : Word) (s : State) :
    (s.walked svc ptr).cancelPending = s.cancelPending := by simp [State.walked, State.memRead]

theorem State.walked_wf (hm : s.mem.wf = true) (svc : StringService) (ptr : Word) :
    (s.walked svc ptr).mem.wf = true := by
  rw [State.walked, walkWord_mem]
  exact State.afterRead_wf hm ptr

/-- A word that does not end the walk leaves the block walking at the next address. -/
theorem State.walked_walks (h : s.walks svc ptr) (hc : s.cancelPending = false)
    (hw : svc.endsAt (State.memRead ptr s).1 = false) : (s.walked svc ptr).walks svc (ptr + 1) := by
  obtain ⟨hr, -⟩ := h
  refine ⟨by rw [State.walked_run, hr], true, ?_, by rw [State.walked_cancelPending, hc]; rfl⟩
  rw [State.walked, walkWord_phase, hw]
  rfl

/-- A word that ends the walk leaves the block ready to fetch. -/
theorem State.walked_ready (h : s.walks svc ptr) (hc : s.cancelPending = false)
    (hw : svc.endsAt (State.memRead ptr s).1 = true) : (s.walked svc ptr).readyToFetch := by
  obtain ⟨hr, -⟩ := h
  refine ⟨by rw [State.walked_run, hr], ?_, by rw [State.walked_cancelPending, hc]⟩
  rw [State.walked, walkWord_phase, if_pos hw]

/-! ### A walk as a whole -/

/-- As long as no word read ends it, a walk goes on, one address a step (R189). -/
theorem walk_goes_on (n : Nat) (h : s.walks svc ptr) (hc : s.cancelPending = false)
    (hw : ∀ k t, k < n → Host.Core.run Sys2Proof.core k s = .next t →
      svc.endsAt (State.memRead (ptr + BitVec.ofNat 16 k) t).1 = false) :
    ∃ t, Host.Core.run Sys2Proof.core n s = .next t ∧ t.walks svc (ptr + BitVec.ofNat 16 n) ∧
      t.cancelPending = false := by
  induction n with
  | zero => exact ⟨s, rfl, by rwa [BitVec.add_zero], hc⟩
  | succ n ih =>
    obtain ⟨t, hrun, ht, htc⟩ := ih fun k t hk => hw k t (Nat.lt_succ_of_lt hk)
    have hnext := State.walked_walks ht htc (hw n t (Nat.lt_succ_self n) hrun)
    refine ⟨_, run_step_last hrun (step_eq_walked ht), ?_, (State.walked_cancelPending ..).trans htc⟩
    rwa [BitVec.ofNat_add, ← BitVec.add_assoc]

/-- Whatever the poll answers, a read of 0xFE00 returns a word with a zero low byte (R53, R54). -/
theorem lowByte_memRead_kbsr (hm : s.mem.wf = true) :
    lowByte (State.memRead 0xFE00 s).1 = 0x00 := by
  show lowByte ((s.afterRead 0xFE00).peek 0xFE00) = 0x00
  cases hp : s.polled with
  | none => rw [State.afterRead_kbsr_peek_of_no_key hm hp, if_pos rfl]; rfl
  | some c => rw [State.afterRead_kbsr_peek_of_key hm hp, if_pos rfl]; rfl

/-- A PUTSP walk less than `n` words before 0xFE00 is over within `n` steps. -/
theorem putsp_walk_ends_within (n : Nat) (hm : s.mem.wf = true) (h : s.walks .putsp ptr)
    (hc : s.cancelPending = false) (hn : ((0xFE00 : Word) - ptr).toNat < n) :
    ∃ k t, k ≤ n ∧ Host.Core.run Sys2Proof.core k s = .next t ∧ t.readyToFetch ∧
      t.regs = s.regs ∧ t.pc = s.pc := by
  induction n generalizing s ptr with
  | zero => exact absurd hn (Nat.not_lt_zero _)
  | succ n ih =>
    have hrun := fun k => run_of_step (k := k) (step_eq_walked h)
    cases hw : StringService.putsp.endsAt (State.memRead ptr s).1 with
    | true => exact ⟨1, _, by omega, hrun 0, State.walked_ready h hc hw, by simp, by simp⟩
    | false =>
      have hne : ptr ≠ 0xFE00 := by
        rintro rfl
        rw [StringService.endsAt, lowByte_memRead_kbsr hm] at hw
        cases hw
      obtain ⟨k, t, hk, ht, hready, hregs, hpc⟩ := ih (State.walked_wf hm _ _)
        (State.walked_walks h hc hw) (by rw [State.walked_cancelPending, hc]) (by bv_omega)
      exact ⟨k + 1, t, by omega, (hrun k).trans ht, hready, by simpa using hregs, by simpa using hpc⟩

/-! ### A string in memory -/

/-- Memory holds the string `ws` from `ptr` upward, wrapping: its words, none of them zero, and then a zero
word, none of them at 0xFE00. -/
def Memory.HoldsString (m : Memory) : Word → List Word → Prop
  | ptr, [] => ptr ≠ 0xFE00 ∧ m.read ptr.toNat = 0x0000
  | ptr, w :: ws => (ptr ≠ 0xFE00 ∧ m.read ptr.toNat = w ∧ w ≠ 0x0000) ∧ m.HoldsString (ptr + 1) ws

theorem add_ofNat_succ (ptr : Word) (k : Nat) :
    ptr + BitVec.ofNat 16 (k + 1) = ptr + 1 + BitVec.ofNat 16 k := by
  rw [Nat.add_comm, BitVec.ofNat_add, ← BitVec.add_assoc]
  rfl

/-- A string whose words are given by their indices. -/
theorem Memory.holdsString_of_index {m : Memory} {ptr : Word} {ws : List Word}
    (hws : ∀ k (h : k < ws.length), ptr + BitVec.ofNat 16 k ≠ 0xFE00 ∧
      m.read (ptr + BitVec.ofNat 16 k).toNat = ws[k] ∧ ws[k] ≠ 0x0000)
    (hend : ptr + BitVec.ofNat 16 ws.length ≠ 0xFE00)
    (hzero : m.read (ptr + BitVec.ofNat 16 ws.length).toNat = 0x0000) : m.HoldsString ptr ws := by
  induction ws generalizing ptr with
  | nil =>
    rw [List.length_nil, BitVec.add_zero] at hend hzero
    exact ⟨hend, hzero⟩
  | cons w ws ih =>
    rw [List.length_cons, add_ofNat_succ] at hend hzero
    have hhead := hws 0 (Nat.zero_lt_succ _)
    rw [BitVec.add_zero] at hhead
    refine ⟨hhead, ih (fun k hk => ?_) hend hzero⟩
    rw [← add_ofNat_succ]
    exact hws (k + 1) (Nat.succ_lt_succ hk)

/-- The zero word of a PUTS walk, anywhere but at 0xFE00 (R188). -/
theorem step_puts_zero (h : s.walks .puts ptr) (hne : ptr ≠ 0xFE00)
    (hzero : s.mem.read ptr.toNat = 0x0000) :
    step s = .next { s with console := s.console ++ [.flush], phase := .fetch } := by
  rw [step_of_walks h, s.afterRead_of_ne hne, walkWord, putsWord_eq, State.peek, if_pos hzero]

/-- Any other word of a PUTS walk, anywhere but at 0xFE00 (R188). -/
theorem step_puts_char {w : Word} (h : s.walks .puts ptr) (hne : ptr ≠ 0xFE00)
    (hget : s.mem.read ptr.toNat = w) (hw : w ≠ 0x0000) :
    step s = .next { s with
      console := s.console ++ [.put (lowByte w)], phase := .stringOut .puts (ptr + 1) true } := by
  rw [step_of_walks h, s.afterRead_of_ne hne, walkWord, putsWord_eq, State.peek, hget, if_neg hw]

/-- A PUTS walk over a string puts its low bytes in order, flushes, and goes back to FETCH (R188). -/
theorem puts_walk_string {ws : List Word} (h : s.walks .puts ptr) (hc : s.cancelPending = false)
    (hws : s.mem.HoldsString ptr ws) :
    Host.Core.run Sys2Proof.core (ws.length + 1) s = .next { s with
      console := s.console ++ ws.map (fun w => ConsoleEvent.put (lowByte w)) ++ [.flush]
      phase := .fetch } := by
  induction ws generalizing s ptr with
  | nil =>
    obtain ⟨hne, hzero⟩ := hws
    rw [List.map_nil, List.append_nil]
    exact run_of_step (k := 0) (step_puts_zero h hne hzero)
  | cons w ws ih =>
    obtain ⟨⟨hne, hget, hw⟩, htail⟩ := hws
    rw [List.map_cons, List.append_cons s.console]
    exact (run_of_step (step_puts_char h hne hget hw)).trans
      (ih (s := { s with
        console := s.console ++ [.put (lowByte w)], phase := .stringOut .puts (ptr + 1) true })
        ⟨h.1, true, rfl, hc⟩ hc htail)

end Sys2Proof.Machine

namespace Sys2Proof.Proofs
open Sys2Proof.Machine

/-- Settles O38: the vector has no service, and the word in the record, the encoding of what was decoded,
is the word itself. -/
theorem unknownVectorIsFatal : Obligations.UnknownVectorIsFatal := by
  intro w s hop hvec
  have hnone : serviceOf (field w 0 8) = none := (serviceOf_eq_none_iff _).mpr hvec
  have hword : encode (.trap (field w 8 4) (field w 0 8)) = w := by rw [← decode_trap hop, encode_decode]
  rw [decode_trap hop, exec_trap_of_no_service hnone, hword]
  rfl

/-- Settles O39: the dispatcher keeps PC and memory, and does the same with any other memory. -/
theorem trapReadsNoVectorTable : Obligations.TrapReadsNoVectorTable := by
  intro u x s
  obtain ⟨r, ph, out, hframe⟩ := dispatch_frame s.link x (encode (.trap u x))
  refine ⟨_, exec_trap u x s, ?_, ?_, fun m => congrArg _ (dispatch_withMem x _ m s.link)⟩
  · rw [hframe]; rfl
  · rw [hframe]; rfl

/-- Settles O40: the step of the TRAP itself, and then the walk over the string R0 points at. -/
theorem putsPrintsString : Obligations.PutsPrintsString := by
  intro ws s hready hpc htrap hws hend hzero
  have hstring := Memory.holdsString_of_index hws hend hzero
  have hfetch := step_fetching_at hready hpc
  obtain ⟨hrun, hphase, hcancel⟩ := hready
  have hstep : step s = .next { s with
      pc := s.pc + 1
      regs := s.regs.set .r7 (s.pc + 1)
      phase := .stringOut .puts (s.reg .r0) false } := by
    refine hfetch.trans ?_
    rw [htrap, show decode 0xF022 = .trap 0 0x22 from by decide, exec_trap_puts]
    rfl
  calc Host.Core.run Sys2Proof.core (ws.length + 2) s
    _ = Host.Core.run Sys2Proof.core (ws.length + 1) _ := run_of_step hstep
    _ = .next _ := puts_walk_string ⟨hrun, false, rfl, rfl⟩ hcancel hstring
    _ = _ := by rw [← hphase]; rfl

/-- Settles O41: `walk_goes_on` for the two services. -/
theorem walkWithoutEndGoesOn : Obligations.WalkWithoutEndGoesOn := by
  refine ⟨fun n s ptr h hc hw => walk_goes_on n h hc fun k t hk hrun => ?_,
    fun n s ptr h hc hw => walk_goes_on n h hc fun k t hk hrun => ?_⟩
  · exact beq_false_of_ne (hw k t hk hrun)
  · obtain ⟨hlo, hhi⟩ := hw k t hk hrun
    exact Bool.or_eq_false_iff.mpr ⟨beq_false_of_ne hlo, beq_false_of_ne hhi⟩

/-- Settles O42: 0xFE00 is less than 65536 words away. -/
theorem putspWalkEnds : Obligations.PutspWalkEnds :=
  fun _ _ hm h hc => putsp_walk_ends_within 65536 hm h hc (BitVec.isLt _)

/-- Settles O32: `exec_trap_getc`, and the completion with COND by the byte. -/
theorem getcService : Obligations.GetcService := by
  refine ⟨exec_trap_getc, fun s c rest hw hk hc => ?_⟩
  rw [step_waits_key hw hk hc, completeInput_eq, Cond.ofWord_zext]
  rfl

/-- Settles O33, by `exec_trap_out`. -/
theorem outService : Obligations.OutService := exec_trap_out

/-- Settles O34: `exec_trap_puts`, and one word of the walk after its read, which leaves the console. -/
theorem putsService : Obligations.PutsService := by
  refine ⟨exec_trap_puts, fun s ptr h _ => ?_⟩
  rw [step_of_walks h, walkWord, putsWord_eq, s.afterRead_console]
  rfl

/-- Settles O35: `exec_trap_in`, and the completion with the echo and COND by the byte. -/
theorem inService : Obligations.InService := by
  refine ⟨exec_trap_in, fun s c rest hw hk hc => ?_⟩
  rw [step_waits_key hw hk hc, completeInput_eq, Cond.ofWord_zext]
  rfl

/-- Settles O36: `exec_trap_putsp`, and one word of the walk after its read, which leaves the console. -/
theorem putspService : Obligations.PutspService := by
  refine ⟨exec_trap_putsp, fun s ptr h _ => ?_⟩
  rw [step_of_walks h, walkWord, putspWord_eq, s.afterRead_console]
  rfl

/-- Settles O37, by `exec_trap_halt`. -/
theorem haltService : Obligations.HaltService := exec_trap_halt

end Sys2Proof.Proofs

/-! Exceptions: every handler and every step answers a next state, what the two fatal stops of a fetched
instruction leave, and the two orders of a byte and a cancel. -/

namespace Sys2Proof.Machine

variable {s t : State}

/-- Each handler answers a next state, TRAP's for every vector: no access faults (R62, R167). -/
theorem exec_answers (i : Instr) (s : State) : ∃ t, exec i s = .next t := by
  cases i <;> exact ⟨_, rfl⟩

/-- Each of the six kinds of state has a next state. -/
theorem step_answers (s : State) : ∃ t, step s = .next t := by
  rcases s.kinds with hb | hc | ⟨i, u, hx⟩ | ⟨svc, c, hk⟩ | ⟨svc, hn⟩ | ⟨svc, ptr, hw⟩
  · exact ⟨_, step_of_blocked hb⟩
  · exact ⟨_, step_of_takesCancel hc⟩
  · rw [step_of_executes hx]
    exact exec_answers i u
  · exact ⟨_, step_of_takesByte hk⟩
  · exact ⟨_, step_of_findsNoByte hn⟩
  · exact ⟨_, step_of_walks hw⟩

/-- How the step of a fetched instruction can end in FATAL: the record is of the address and the word
fetched, and the link of an undefined vector, the address after it, is all that changes beside the fetch
and the run state (R196, R210, R211). -/
theorem step_fatal {r : FatalRecord} (hs : s.readyToFetch) (h : step s = .next t)
    (ht : t.run = .fatal r) :
    r.faultPC = s.pc ∧ r.faultInstr = (State.memRead s.pc s).1 ∧
      t = { s.fetch with
        run := .fatal r
        regs := if r.reason = .unknownTrap then s.regs.set .r7 (s.pc + 1) else s.regs } := by
  have hrun : s.fetch.run = .running := s.fetch_run.trans hs.1
  have hpc : s.fetch.pc - 1 = s.pc := by rw [State.fetch_pc, add_sub_cancel_right]
  rw [step_of_ready hs] at h
  rcases exec_fatal hrun h ht with ⟨rfl, -⟩ | ⟨rfl, -⟩ <;> cases ht
  · exact ⟨hpc, encode_decode _, by simp [s.fetch_eq]⟩
  · exact ⟨hpc, encode_decode _, by simp [s.fetch_eq]⟩

end Sys2Proof.Machine

namespace Sys2Proof.Proofs
open Sys2Proof.Machine

/-- Settles O44: `exec_answers` for the handlers, `step_answers` for the steps. -/
theorem everyStepAnswersNext : Obligations.EveryStepAnswersNext := ⟨exec_answers, step_answers⟩

/-- Settles O46: `step_fatal`, and FATAL is a terminal run state. -/
theorem fatalNamesFetchedInstruction : Obligations.FatalNamesFetchedInstruction := by
  intro s t r hs h ht
  obtain ⟨hpc, hinstr, heffect⟩ := step_fatal hs h ht
  exact ⟨hpc, hinstr, heffect, step_of_blocked (.inl (by rw [ht]; rfl)), rfl, rfl⟩

/-- Settles O54: the draw decides which of the two is taken, and a byte taken first leaves the block in
FETCH with the cancel pending. -/
theorem cancelRaceAdmitsBothOrders : Obligations.CancelRaceAdmitsBothOrders := by
  intro s svc c rest hw hc hk
  obtain ⟨hrun, hphase⟩ := hw
  have hcancel : State.takesCancel { s with cancelFirst := true } :=
    ⟨hrun, hc, .inr (.inr ⟨svc, hphase, .inr rfl⟩)⟩
  have hbyte : State.takesByte { s with cancelFirst := false } svc c :=
    ⟨⟨hrun, hphase⟩, State.polled_of_key hk, Bool.and_false _⟩
  refine ⟨step_of_takesCancel hcancel, _, step_of_takesByte hbyte, ?_⟩
  rw [completeInput_eq]
  exact ⟨Regs.get_set_self s.regs .r0 (zext c), congrArg List.tail hk, hrun, rfl,
    step_of_takesCancel ⟨hrun, hc, .inl rfl⟩⟩

end Sys2Proof.Proofs

/-! Reset and boot: what the ports do while reset is held, and what an image's bytes leave in memory. -/

namespace Sys2Proof.Machine

variable {s : State}

/-! ### The ports in RESET -/

theorem State.releaseReset_of_reset (h : s.phase = .reset) (e : Word) (g : Regs) :
    s.releaseReset e g = { s with
      regs := g, pc := e, cond := .z, run := .running, phase := .fetch, cancelPending := false } :=
  if_pos (Phase.isReset_iff.mpr h)

/-- A cancel asserted while reset is held is dropped (R240). -/
theorem State.assertCancel_of_reset (h : s.phase = .reset) (first : Bool) :
    s.assertCancel first = s := if_pos (by simp [Phase.isReset_iff.mpr h])

theorem State.bootWrite_frame (a v : Word) (s : State) :
    s.bootWrite a v = { s with mem := (s.bootWrite a v).mem } := by
  unfold State.bootWrite
  split <;> rfl

theorem State.bootWrite_wf (hm : s.mem.wf = true) (a v : Word) : (s.bootWrite a v).mem.wf = true := by
  unfold State.bootWrite
  split
  · exact State.memWrite_wf hm a v
  · exact hm

@[simp] theorem State.bootWrite_phase (a v : Word) (s : State) : (s.bootWrite a v).phase = s.phase := by
  rw [State.bootWrite_frame]

theorem State.bootWrite_peek (hp : s.phase = .reset) (hm : s.mem.wf = true) (a v x : Word) :
    (s.bootWrite a v).peek x = if x = a then v else s.peek x := by
  rw [State.bootWrite_of_reset hp]
  exact State.memWrite_peek hm a v x

/-! ### The words of an image -/

/-- A word in the image format's order, high byte first (R59, R246). -/
def wordBytes (w : Word) : List Byte := [w.extractLsb' 8 8, w.extractLsb' 0 8]

/-- The loader reads back the word its two bytes were cut from. -/
theorem bigEndian_bytes (w : Word) : bigEndian (w.extractLsb' 8 8) (w.extractLsb' 0 8) = w :=
  (BitVec.extractLsb'_append_extractLsb'_eq_extractLsb' rfl).trans BitVec.extractLsb'_eq_self

theorem loadWords_past {a : Nat} (ha : Config.memoryWords ≤ a) (bs : List Byte) (s : State) :
    loadWords a bs s = s := by
  match bs with
  | _ :: _ :: _ => exact if_neg (Nat.not_lt.mpr ha)
  | [_] | [] => rfl

theorem loadWords_word {a : Nat} (ha : a < Config.memoryWords) (w : Word) (bs : List Byte) (s : State) :
    loadWords a (wordBytes w ++ bs) s = loadWords (a + 1) bs (s.bootWrite (BitVec.ofNat 16 a) w) := by
  refine (if_pos ha).trans ?_
  rw [bigEndian_bytes]
  rfl

/-- Loading writes memory and nothing else. -/
theorem loadWords_frame (a : Nat) (bs : List Byte) (s : State) :
    loadWords a bs s = { s with mem := (loadWords a bs s).mem } := by
  induction a, bs, s using loadWords.induct with
  | case1 a hi lo bs s ha ih =>
    rw [State.bootWrite_frame] at ih
    simpa only [loadWords, if_pos ha, ← State.bootWrite_frame] using ih
  | case2 a hi lo bs s ha => rw [loadWords_past (Nat.not_lt.mp ha)]
  | case3 | case4 => rfl

theorem loadWords_wf (a : Nat) (bs : List Byte) (hm : s.mem.wf = true) :
    (loadWords a bs s).mem.wf = true := by
  induction a, bs, s using loadWords.induct with
  | case1 a hi lo bs s ha ih =>
    rw [loadWords, if_pos ha]
    exact ih (State.bootWrite_wf hm _ _)
  | case2 a hi lo bs s ha => rwa [loadWords_past (Nat.not_lt.mp ha)]
  | case3 | case4 => exact hm

/-- A last odd byte forms no whole word (R247). -/
theorem loadWords_odd_byte (b : Byte) (ws : List Word) (a : Nat) (s : State) :
    loadWords a (ws.flatMap wordBytes ++ [b]) s = loadWords a (ws.flatMap wordBytes) s := by
  induction ws generalizing a s with
  | nil => rfl
  | cons w ws ih =>
    rw [List.flatMap_cons, List.append_assoc]
    rcases Nat.lt_or_ge a Config.memoryWords with ha | ha
    · rw [loadWords_word ha, loadWords_word ha, ih]
    · rw [loadWords_past ha, loadWords_past ha]

/-- Word `k` is at `a + k`; the words past 0xFFFF are at no address. -/
theorem loadWords_peek (hp : s.phase = .reset) (hm : s.mem.wf = true) (ws : List Word) (a : Nat)
    (x : Word) : (loadWords a (ws.flatMap wordBytes) s).peek x =
      if a ≤ x.toNat then ws.getD (x.toNat - a) (s.peek x) else s.peek x := by
  induction ws generalizing a s with
  | nil => exact (ite_self _).symm
  | cons w ws ih =>
    rcases Nat.lt_or_ge a Config.memoryWords with ha | ha
    · rw [List.flatMap_cons, loadWords_word ha,
        ih (by rw [State.bootWrite_phase, hp]) (State.bootWrite_wf hm _ _),
        State.bootWrite_peek hp hm]
      have hx : x = BitVec.ofNat 16 a ↔ x.toNat = a :=
        (BitVec.toNat_eq_nat.trans (and_iff_right ha)).symm
      simp only [hx]
      rcases Nat.lt_trichotomy x.toNat a with h | h | h
      · rw [if_neg (by omega), if_neg (by omega), if_neg (by omega)]
      · rw [if_neg (by omega), if_pos h, if_pos h.ge, h, Nat.sub_self, List.getD_cons_zero]
      · rw [if_pos (Nat.succ_le_of_lt h), if_neg h.ne', if_pos h.le,
          show x.toNat - a = x.toNat - (a + 1) + 1 by omega, List.getD_cons_succ]
    · rw [loadWords_past ha, if_neg (Nat.not_le.mpr (x.isLt.trans_le ha))]

theorem loadImage_origin (o : Word) (bs : List Byte) (s : State) :
    loadImage (wordBytes o ++ bs) s = loadWords o.toNat bs s :=
  congrArg (fun a : Word => loadWords a.toNat bs s) (bigEndian_bytes o)

end Sys2Proof.Machine

namespace Sys2Proof.Proofs
open Sys2Proof.Machine

/-- Settles O57: the image is its origin's bytes and then the bytes of its words, and `loadWords` has
a law for each clause. -/
theorem imageLoadsAtOrigin : Obligations.ImageLoadsAtOrigin := by
  intro s o ws hp hm image
  have hload : loadImage image s = loadWords o.toNat (ws.flatMap wordBytes) s := loadImage_origin o _ s
  rw [hload]
  exact ⟨loadWords_peek hp hm ws o.toNat, loadWords_frame _ _ s, loadWords_wf _ _ hm,
    fun b => (loadImage_origin o (ws.flatMap wordBytes ++ [b]) s).trans (loadWords_odd_byte b ws _ s),
    rfl, fun _ => rfl⟩

/-- Settles O55: asserting reset enters RESET, where each of the ports has its law; the fields of the
reset state are evaluated. -/
theorem resetReleaseValues : Obligations.ResetReleaseValues := by
  intro s entryPC gpr
  have hp : s.assertReset.phase = .reset := rfl
  exact ⟨step_of_blocked (.inr hp), rfl, State.assertCancel_of_reset hp,
    State.releaseReset_of_reset hp entryPC gpr, rfl, rfl, rfl, rfl, rfl, rfl⟩

/-- Settles O58: the block is in FETCH with no fatal record, and an empty memory is canonical. -/
theorem invariantAtReset : Obligations.InvariantAtReset :=
  .of_no_service rfl (.inl rfl) nofun

end Sys2Proof.Proofs
